-- ==== Sys2Proof/Word.lean ====
section
/-! DEFINITION. The word types of the core (spec/00_scope.md R5, R7) and the reduction of an integer to a word. -/

namespace Sys2Proof

/-- A `u32`: every register, ALU operand and ALU result (R5, R7). -/
abbrev Word := BitVec 32

/-- A byte of memory, or an 8-bit field of an instruction word. -/
abbrev Byte := BitVec 8

/-- A 16-bit field of an instruction word: an immediate or a jump address (R5). -/
abbrev Half := BitVec 16

/-- A register index an instruction can name: 0 to 7 are `R0` to `R7`, 8 is SP (R5, R21, R87). -/
abbrev RegIx := Fin 9

/-- The index of SP, which is general register index 8 (R21). -/
def spIx : RegIx := 8

/-- `mask32(n)`: an integer modulo `2^32`, negative integers in two's complement (R7, R23). -/
def mask32 (n : Int) : Word := BitVec.ofInt 32 n

end Sys2Proof
end

