-- ==== Sys2Proof/Syntax.lean ====
section
/-! DEFINITION. The syntax of the core ISA: the seven operand-shape classes (spec/30_encoding.md R82), the two tiers (R89), the
46 instruction identities (R90) and the decoded instruction, one constructor for each row of spec/opcode_table.json (R84). -/

namespace Sys2Proof

/-- The seven operand-shape classes (R82). -/
inductive Shape where
  | noOperands | regReg | regImm | regUnary | load | store | jump
  deriving DecidableEq, Repr

/-- How an instruction is attested (R89): tier S by the source, tier D by the spec's decision D2. -/
inductive Tier where
  | s | d
  deriving DecidableEq, Repr

/-- The 46 instruction identities (R90). `OPCODE_MAP` gives each its 8-bit number. -/
inductive Opcode where
  | nop | halt | clc | stc | movReg | movImm | load | store | addReg | addImm | subReg | subImm |
  mulReg | mulImm | divReg | divImm | addcReg | addcImm | subcReg | subcImm | andReg | andImm |
  orReg | orImm | xorReg | xorImm | notReg | shlReg | shlImm | shrReg | shrImm | sarReg | sarImm |
  rolReg | rolImm | rorReg | rorImm | cmpReg | cmpImm | jmp | jz | jnz | jc | jnc | js | jns
  deriving DecidableEq, Repr

/-- The operand-shape class of an identity: the class column of R90. -/
def Opcode.shape : Opcode → Shape
  | .nop | .halt | .clc | .stc => .noOperands
  | .movReg | .addReg | .subReg | .mulReg | .divReg | .addcReg | .subcReg | .andReg | .orReg | .xorReg
  | .shlReg | .shrReg | .sarReg | .rolReg | .rorReg | .cmpReg => .regReg
  | .movImm | .addImm | .subImm | .mulImm | .divImm | .addcImm | .subcImm | .andImm | .orImm | .xorImm
  | .shlImm | .shrImm | .sarImm | .rolImm | .rorImm | .cmpImm => .regImm
  | .notReg => .regUnary
  | .load => .load
  | .store => .store
  | .jmp | .jz | .jnz | .jc | .jnc | .js | .jns => .jump

/-- The tier of an identity: the tier column of R90. -/
def Opcode.tier : Opcode → Tier
  | .stc | .addcImm | .subcReg | .subcImm | .rolReg | .rolImm | .rorReg | .rorImm => .d
  | .nop | .halt | .clc | .movReg | .movImm | .load | .store | .addReg | .addImm | .subReg | .subImm
  | .mulReg | .mulImm | .divReg | .divImm | .addcReg | .andReg | .andImm | .orReg | .orImm | .xorReg
  | .xorImm | .notReg | .shlReg | .shlImm | .shrReg | .shrImm | .sarReg | .sarImm | .cmpReg | .cmpImm | .jmp
  | .jz | .jnz | .jc | .jnc | .js | .jns => .s

/-- A decoded instruction (R84), one constructor per row of spec/opcode_table.json. `dest`, `src` and `base` are register indices
0 to 8; `imm` is the immediate after sign extension, a `u32` (R85); `addr` is the 16-bit unsigned jump address (R86). In `store`
the register `base` holds the address and `src` the data (R82). -/
inductive Instr where
  /-- `NOP`: 42_system.md R180. -/
  | nop
  /-- `HALT`: 42_system.md R181. -/
  | halt
  /-- `CLC`: 42_system.md R182. -/
  | clc
  /-- `STC`: 42_system.md R183. -/
  | stc
  /-- `MOV Rd,Rs`: 43_data_movement.md R190. -/
  | movReg (dest src : RegIx)
  /-- `MOV Rd,#imm`: 43_data_movement.md R191. -/
  | movImm (dest : RegIx) (imm : Word)
  /-- `LOAD Rd,[Rs]`: 43_data_movement.md R192. -/
  | load (dest base : RegIx)
  /-- `STORE [Rd],Rs`: 43_data_movement.md R193. -/
  | store (base src : RegIx)
  /-- `ADD Rd,Rs`: 44_arithmetic.md R200. -/
  | addReg (dest src : RegIx)
  /-- `ADD Rd,#imm`: 44_arithmetic.md R201. -/
  | addImm (dest : RegIx) (imm : Word)
  /-- `SUB Rd,Rs`: 44_arithmetic.md R202. -/
  | subReg (dest src : RegIx)
  /-- `SUB Rd,#imm`: 44_arithmetic.md R203. -/
  | subImm (dest : RegIx) (imm : Word)
  /-- `MUL Rd,Rs`: 44_arithmetic.md R204. -/
  | mulReg (dest src : RegIx)
  /-- `MUL Rd,#imm`: 44_arithmetic.md R205. -/
  | mulImm (dest : RegIx) (imm : Word)
  /-- `DIV Rd,Rs`: 44_arithmetic.md R206. -/
  | divReg (dest src : RegIx)
  /-- `DIV Rd,#imm`: 44_arithmetic.md R207. -/
  | divImm (dest : RegIx) (imm : Word)
  /-- `ADDC Rd,Rs`: 44_arithmetic.md R208. -/
  | addcReg (dest src : RegIx)
  /-- `ADDC Rd,#imm`: 44_arithmetic.md R209. -/
  | addcImm (dest : RegIx) (imm : Word)
  /-- `SUBC Rd,Rs`: 44_arithmetic.md R210. -/
  | subcReg (dest src : RegIx)
  /-- `SUBC Rd,#imm`: 44_arithmetic.md R211. -/
  | subcImm (dest : RegIx) (imm : Word)
  /-- `AND Rd,Rs`: 45_logic.md R220. -/
  | andReg (dest src : RegIx)
  /-- `AND Rd,#imm`: 45_logic.md R221. -/
  | andImm (dest : RegIx) (imm : Word)
  /-- `OR Rd,Rs`: 45_logic.md R222. -/
  | orReg (dest src : RegIx)
  /-- `OR Rd,#imm`: 45_logic.md R223. -/
  | orImm (dest : RegIx) (imm : Word)
  /-- `XOR Rd,Rs`: 45_logic.md R224. -/
  | xorReg (dest src : RegIx)
  /-- `XOR Rd,#imm`: 45_logic.md R225. -/
  | xorImm (dest : RegIx) (imm : Word)
  /-- `NOT Rd`: 45_logic.md R226. -/
  | notReg (dest : RegIx)
  /-- `SHL Rd,Rs`: 46_shift_rotate.md R230. -/
  | shlReg (dest src : RegIx)
  /-- `SHL Rd,#imm`: 46_shift_rotate.md R231. -/
  | shlImm (dest : RegIx) (imm : Word)
  /-- `SHR Rd,Rs`: 46_shift_rotate.md R232. -/
  | shrReg (dest src : RegIx)
  /-- `SHR Rd,#imm`: 46_shift_rotate.md R233. -/
  | shrImm (dest : RegIx) (imm : Word)
  /-- `SAR Rd,Rs`: 46_shift_rotate.md R234. -/
  | sarReg (dest src : RegIx)
  /-- `SAR Rd,#imm`: 46_shift_rotate.md R235. -/
  | sarImm (dest : RegIx) (imm : Word)
  /-- `ROL Rd,Rs`: 46_shift_rotate.md R236. -/
  | rolReg (dest src : RegIx)
  /-- `ROL Rd,#imm`: 46_shift_rotate.md R237. -/
  | rolImm (dest : RegIx) (imm : Word)
  /-- `ROR Rd,Rs`: 46_shift_rotate.md R238. -/
  | rorReg (dest src : RegIx)
  /-- `ROR Rd,#imm`: 46_shift_rotate.md R239. -/
  | rorImm (dest : RegIx) (imm : Word)
  /-- `CMP Rd,Rs`: 47_compare.md R250. -/
  | cmpReg (dest src : RegIx)
  /-- `CMP Rd,#imm`: 47_compare.md R251. -/
  | cmpImm (dest : RegIx) (imm : Word)
  /-- `JMP addr`: 48_jumps.md R256. -/
  | jmp (addr : Half)
  /-- `JZ addr`: 48_jumps.md R257. -/
  | jz (addr : Half)
  /-- `JNZ addr`: 48_jumps.md R258. -/
  | jnz (addr : Half)
  /-- `JC addr`: 48_jumps.md R259. -/
  | jc (addr : Half)
  /-- `JNC addr`: 48_jumps.md R260. -/
  | jnc (addr : Half)
  /-- `JS addr`: 48_jumps.md R261. -/
  | js (addr : Half)
  /-- `JNS addr`: 48_jumps.md R262. -/
  | jns (addr : Half)
  deriving DecidableEq, Repr

/-- The identity of an instruction. -/
def Instr.opcode : Instr → Opcode
  | .nop => .nop
  | .halt => .halt
  | .clc => .clc
  | .stc => .stc
  | .movReg _ _ => .movReg
  | .movImm _ _ => .movImm
  | .load _ _ => .load
  | .store _ _ => .store
  | .addReg _ _ => .addReg
  | .addImm _ _ => .addImm
  | .subReg _ _ => .subReg
  | .subImm _ _ => .subImm
  | .mulReg _ _ => .mulReg
  | .mulImm _ _ => .mulImm
  | .divReg _ _ => .divReg
  | .divImm _ _ => .divImm
  | .addcReg _ _ => .addcReg
  | .addcImm _ _ => .addcImm
  | .subcReg _ _ => .subcReg
  | .subcImm _ _ => .subcImm
  | .andReg _ _ => .andReg
  | .andImm _ _ => .andImm
  | .orReg _ _ => .orReg
  | .orImm _ _ => .orImm
  | .xorReg _ _ => .xorReg
  | .xorImm _ _ => .xorImm
  | .notReg _ => .notReg
  | .shlReg _ _ => .shlReg
  | .shlImm _ _ => .shlImm
  | .shrReg _ _ => .shrReg
  | .shrImm _ _ => .shrImm
  | .sarReg _ _ => .sarReg
  | .sarImm _ _ => .sarImm
  | .rolReg _ _ => .rolReg
  | .rolImm _ _ => .rolImm
  | .rorReg _ _ => .rorReg
  | .rorImm _ _ => .rorImm
  | .cmpReg _ _ => .cmpReg
  | .cmpImm _ _ => .cmpImm
  | .jmp _ => .jmp
  | .jz _ => .jz
  | .jnz _ => .jnz
  | .jc _ => .jc
  | .jnc _ => .jnc
  | .js _ => .js
  | .jns _ => .jns

end Sys2Proof
end

