-- ==== Sys2Proof/Config.lean ====
section
/-! DEFINITION. The parameters of a core instance (spec/00_scope.md R6). Each is fixed for the life of an instance; the state
carries them unchanged (notes/assumptions/1.md). Their default values stand in Sys2Proof/Decode.lean. `MEM_INIT` is the argument of
`construct` (Sys2Proof/Machine/HostOps.lean). The spec leaves no instruction's result open, so there is no free value here. -/

namespace Sys2Proof

/-- The parameters of R6. -/
structure Config where
  /-- `MEM_SIZE`, the number of bytes of memory. -/
  memSize : Nat
  /-- `STACK_SIZE`, the bytes reserved above the initial SP. -/
  stackSize : Nat
  /-- `OPCODE_MAP`: the 8-bit number of each identity (R90). -/
  opcodeMap : List (Byte × Opcode)
  /-- `TIER_D`: whether the eight instructions of tier D exist (R89). -/
  tierD : Bool
  /-- `SAR_MASKS_COUNT`: whether SAR masks its count to 5 bits (R160). -/
  sarMasksCount : Bool
  deriving DecidableEq, Repr

/-- `STACK_BASE = MEM_SIZE - STACK_SIZE` (R6, R33), as an address. -/
def Config.stackBase (c : Config) : Nat := c.memSize - c.stackSize

/-- Every identity, for the check that `OPCODE_MAP` is a map from all of them (R6, R90). -/
def Opcode.all : List Opcode :=
  [.nop, .halt, .clc, .stc, .movReg, .movImm, .load, .store, .addReg, .addImm, .subReg, .subImm, .mulReg,
   .mulImm, .divReg, .divImm, .addcReg, .addcImm, .subcReg, .subcImm, .andReg, .andImm, .orReg, .orImm,
   .xorReg, .xorImm, .notReg, .shlReg, .shlImm, .shrReg, .shrImm, .sarReg, .sarImm, .rolReg, .rolImm, .rorReg,
   .rorImm, .cmpReg, .cmpImm, .jmp, .jz, .jnz, .jc, .jnc, .js, .jns]

/-- The constraints on the parameters: `0 < MEM_SIZE <= 2^32`, `MEM_SIZE mod 4 = 0` (R6, D6), `0 <= STACK_SIZE <= MEM_SIZE` (R6, D5),
and `OPCODE_MAP` an injective map from the identities to 8-bit numbers (92_eei_decisions.md section 1; notes/assumptions/4.md). -/
def Config.valid (c : Config) : Bool :=
  decide (0 < c.memSize) && decide (c.memSize ≤ 2 ^ 32) && decide (c.memSize % 4 = 0) &&
    decide (c.stackSize ≤ c.memSize) &&
    decide (c.opcodeMap.map (·.1)).Nodup && decide (c.opcodeMap.map (·.2)).Nodup &&
    Opcode.all.all (fun op => decide (op ∈ c.opcodeMap.map (·.2)))

end Sys2Proof
end

