-- ==== Sys2Proof/WellFormed.lean ====
section
/-! DEFINITION. Which instructions an instance can represent (spec/30_encoding.md R94): the register indices are 0 to 8 and the jump
address 0 to 65535 by their types; the immediate must be a sign-extended 16-bit value; and the identity must be a key of
`OPCODE_MAP` (R89, R91). -/

namespace Sys2Proof

/-- `imm = sext_16(imm[15:0])` (R94). -/
def immRepresentable (imm : Word) : Bool := decide (BitVec.signExtend 32 (BitVec.setWidth 16 imm) = imm)

/-- The immediate of an instruction, where it has one, is representable (R94). -/
def Instr.immOk : Instr → Bool
  | .movImm _ imm | .addImm _ imm | .subImm _ imm | .mulImm _ imm | .divImm _ imm | .addcImm _ imm
  | .subcImm _ imm | .andImm _ imm | .orImm _ imm | .xorImm _ imm | .shlImm _ imm | .shrImm _ imm
  | .sarImm _ imm | .rolImm _ imm | .rorImm _ imm | .cmpImm _ imm => immRepresentable imm
  | .nop | .halt | .clc | .stc | .movReg _ _ | .load _ _ | .store _ _ | .addReg _ _ | .subReg _ _
  | .mulReg _ _ | .divReg _ _ | .addcReg _ _ | .subcReg _ _ | .andReg _ _ | .orReg _ _ | .xorReg _ _
  | .notReg _ | .shlReg _ _ | .shrReg _ _ | .sarReg _ _ | .rolReg _ _ | .rorReg _ _ | .cmpReg _ _ | .jmp _
  | .jz _ | .jnz _ | .jc _ | .jnc _ | .js _ | .jns _ => true

/-- The identity has a number in this instance: it is listed in `OPCODE_MAP`, and it is of tier S or `TIER_D` holds (R89). -/
def Config.available (c : Config) (op : Opcode) : Bool :=
  decide (op ∈ c.opcodeMap.map (·.2)) && (c.tierD || decide (op.tier = .s))

/-- A representable instruction of the instance (R94). -/
def wellFormed (c : Config) (i : Instr) : Bool := i.immOk && c.available i.opcode

end Sys2Proof
end

