-- ==== Sys2Proof/Decode.lean ====
section
/-! DEFINITION. The default parameters (spec/00_scope.md R6, spec/30_encoding.md R90), byte order within a word (spec/20_memory.md R51), the
fields of an instruction word (R81), the decoder (R83) and the encoder (R94). -/

namespace Sys2Proof

/-! ## Default parameters -/

/-- The rows of R90 for spec/42_system.md. -/
def opcodesSystem : List (Byte × Opcode) :=
  [(0x00, .nop), (0x01, .halt), (0x02, .clc), (0x03, .stc)]

/-- The rows of R90 for spec/43_data_movement.md. -/
def opcodesDataMovement : List (Byte × Opcode) :=
  [(0x10, .movReg), (0x11, .movImm), (0x12, .load), (0x13, .store)]

/-- The rows of R90 for spec/44_arithmetic.md. -/
def opcodesArithmetic : List (Byte × Opcode) :=
  [(0x20, .addReg), (0x21, .addImm), (0x22, .subReg), (0x23, .subImm), (0x24, .mulReg), (0x25, .mulImm),
   (0x26, .divReg), (0x27, .divImm), (0x28, .addcReg), (0x29, .addcImm), (0x2A, .subcReg), (0x2B, .subcImm)]

/-- The rows of R90 for spec/45_logic.md. -/
def opcodesLogic : List (Byte × Opcode) :=
  [(0x30, .andReg), (0x31, .andImm), (0x32, .orReg), (0x33, .orImm), (0x34, .xorReg), (0x35, .xorImm),
   (0x36, .notReg)]

/-- The rows of R90 for spec/46_shift_rotate.md. -/
def opcodesShiftRotate : List (Byte × Opcode) :=
  [(0x40, .shlReg), (0x41, .shlImm), (0x42, .shrReg), (0x43, .shrImm), (0x44, .sarReg), (0x45, .sarImm),
   (0x46, .rolReg), (0x47, .rolImm), (0x48, .rorReg), (0x49, .rorImm)]

/-- The rows of R90 for spec/47_compare.md. -/
def opcodesCompare : List (Byte × Opcode) :=
  [(0x50, .cmpReg), (0x51, .cmpImm)]

/-- The rows of R90 for spec/48_jumps.md. -/
def opcodesJumps : List (Byte × Opcode) :=
  [(0x60, .jmp), (0x61, .jz), (0x62, .jnz), (0x63, .jc), (0x64, .jnc), (0x65, .js), (0x66, .jns)]

/-- The default `OPCODE_MAP`, the table of R90 (decision D1; notes/assumptions/4.md). -/
def defaultOpcodeMap : List (Byte × Opcode) :=
  opcodesSystem ++ opcodesDataMovement ++ opcodesArithmetic ++ opcodesLogic ++ opcodesShiftRotate ++ opcodesCompare ++
    opcodesJumps

/-- The default instance: `MEM_SIZE` 262144, `TIER_D` and `SAR_MASKS_COUNT` true (R6); `STACK_SIZE` has no default in the spec and is
the 4096 of spec/95_test_vectors.md. DESIGN CHOICE, unsafe (notes/assumptions/2.md, 10.md). -/
def Config.default : Config where
  memSize := 262144
  stackSize := 4096
  opcodeMap := defaultOpcodeMap
  tierD := true
  sarMasksCount := true

/-- The rows of `OPCODE_MAP` this instance has: without `TIER_D`, the tier D rows are absent (R89). -/
def Config.opcodes (c : Config) : List (Byte × Opcode) :=
  if c.tierD then c.opcodeMap else c.opcodeMap.filter (fun e => decide (e.2.tier = .s))

/-- The identity an opcode byte stands for, none where the byte is no key (R83, R91). -/
def Config.lookup (c : Config) (b : Byte) : Option Opcode :=
  (c.opcodes.find? (fun e => decide (e.1 = b))).map (·.2)

/-- The number of an identity, none where the instance has no such row. -/
def Config.number (c : Config) (op : Opcode) : Option Byte :=
  (c.opcodes.find? (fun e => decide (e.2 = op))).map (·.1)

/-! ## Bit fields and byte order -/

/-- `sext_16(v)`: `v | 0xFFFF0000` where `v[15] = 1`, else `v` (R8, R85). -/
def sext16 (v : Half) : Word :=
  if v.getLsbD 15 then BitVec.setWidth 32 v ||| 0xFFFF0000#32 else BitVec.setWidth 32 v

/-- `w[31:24]` (R81). -/
def opcodeField (w : Word) : Byte := BitVec.extractLsb' 24 8 w

/-- `w[23:16]` (R81). -/
def reg1Field (w : Word) : Byte := BitVec.extractLsb' 16 8 w

/-- `w[15:0]` (R81). -/
def operandField (w : Word) : Half := BitVec.extractLsb' 0 16 w

/-- `operand[7:0]`, the second register field (R82). -/
def reg2Field (w : Word) : Byte := BitVec.extractLsb' 0 8 w

/-- `opcode << 24 | reg1 << 16 | operand` (R81, R94). -/
def packFields (opcode reg1 : Byte) (operand : Half) : Word := opcode ++ reg1 ++ operand

/-- The little-endian word of four bytes, `b0` from the lowest address (R51). -/
def wordOfBytes (b0 b1 b2 b3 : Byte) : Word := b3 ++ b2 ++ b1 ++ b0

/-- Byte `k` of a word in memory order: `v[8k+7:8k]` (R51, R53). -/
def byteOfWord (v : Word) (k : Nat) : Byte := BitVec.extractLsb' (8 * k) 8 v

/-- The four bytes of a word in ascending address order (R51, R52). -/
def bytesOfWord (v : Word) : List Byte := [byteOfWord v 0, byteOfWord v 1, byteOfWord v 2, byteOfWord v 3]

/-! ## Decode -/

/-- Why a word does not decode (R83): each is a fault of the step, named as the spec names it. -/
inductive DecodeError where
  /-- The opcode byte is no key of `OPCODE_MAP` (R91, R275). -/
  | unknownOpcode (opcode : Byte)
  /-- A register field that the class reads is 9 to 255 (R87, R277). -/
  | invalidRegister (index : Byte)
  deriving DecidableEq, Repr

/-- `check_reg(r)`: the register index, or InvalidRegister above 8 (R83, R87). -/
def checkReg (r : Byte) : Except DecodeError RegIx :=
  if h : r.toNat < 9 then .ok ⟨r.toNat, h⟩ else .error (.invalidRegister r)

/-- The classes REG_REG, LOAD and STORE read two register fields, `reg1` first (R83, decision D9). -/
def decodeTwoRegs (mk : RegIx → RegIx → Instr) (w : Word) : Except DecodeError Instr :=
  match checkReg (reg1Field w) with
  | .error e => .error e
  | .ok r1 =>
    match checkReg (reg2Field w) with
    | .error e => .error e
    | .ok r2 => .ok (mk r1 r2)

/-- The class REG_IMM (R83, R85). -/
def decodeRegImm (mk : RegIx → Word → Instr) (w : Word) : Except DecodeError Instr :=
  match checkReg (reg1Field w) with
  | .error e => .error e
  | .ok r1 => .ok (mk r1 (sext16 (operandField w)))

/-- The class REG_UNARY (R83). -/
def decodeRegUnary (mk : RegIx → Instr) (w : Word) : Except DecodeError Instr :=
  match checkReg (reg1Field w) with
  | .error e => .error e
  | .ok r1 => .ok (mk r1)

/-- The class JUMP (R83, R86). -/
def decodeJump (mk : Half → Instr) (w : Word) : Except DecodeError Instr := .ok (mk (operandField w))

/-- The fields of a word whose opcode is known; bits the class does not read are ignored (R83, R88). -/
def decodeFields (op : Opcode) (w : Word) : Except DecodeError Instr :=
  match op with
  | .nop => .ok .nop
  | .halt => .ok .halt
  | .clc => .ok .clc
  | .stc => .ok .stc
  | .movReg => decodeTwoRegs .movReg w
  | .movImm => decodeRegImm .movImm w
  | .load => decodeTwoRegs .load w
  | .store => decodeTwoRegs .store w
  | .addReg => decodeTwoRegs .addReg w
  | .addImm => decodeRegImm .addImm w
  | .subReg => decodeTwoRegs .subReg w
  | .subImm => decodeRegImm .subImm w
  | .mulReg => decodeTwoRegs .mulReg w
  | .mulImm => decodeRegImm .mulImm w
  | .divReg => decodeTwoRegs .divReg w
  | .divImm => decodeRegImm .divImm w
  | .addcReg => decodeTwoRegs .addcReg w
  | .addcImm => decodeRegImm .addcImm w
  | .subcReg => decodeTwoRegs .subcReg w
  | .subcImm => decodeRegImm .subcImm w
  | .andReg => decodeTwoRegs .andReg w
  | .andImm => decodeRegImm .andImm w
  | .orReg => decodeTwoRegs .orReg w
  | .orImm => decodeRegImm .orImm w
  | .xorReg => decodeTwoRegs .xorReg w
  | .xorImm => decodeRegImm .xorImm w
  | .notReg => decodeRegUnary .notReg w
  | .shlReg => decodeTwoRegs .shlReg w
  | .shlImm => decodeRegImm .shlImm w
  | .shrReg => decodeTwoRegs .shrReg w
  | .shrImm => decodeRegImm .shrImm w
  | .sarReg => decodeTwoRegs .sarReg w
  | .sarImm => decodeRegImm .sarImm w
  | .rolReg => decodeTwoRegs .rolReg w
  | .rolImm => decodeRegImm .rolImm w
  | .rorReg => decodeTwoRegs .rorReg w
  | .rorImm => decodeRegImm .rorImm w
  | .cmpReg => decodeTwoRegs .cmpReg w
  | .cmpImm => decodeRegImm .cmpImm w
  | .jmp => decodeJump .jmp w
  | .jz => decodeJump .jz w
  | .jnz => decodeJump .jnz w
  | .jc => decodeJump .jc w
  | .jnc => decodeJump .jnc w
  | .js => decodeJump .js w
  | .jns => decodeJump .jns w

/-- Decode a fetched word: the opcode is looked up first, then the register fields are checked (R83, R281). -/
def decode (c : Config) (w : Word) : Except DecodeError Instr :=
  match c.lookup (opcodeField w) with
  | none => .error (.unknownOpcode (opcodeField w))
  | some op => decodeFields op w

/-- Decode from bytes in memory order: the instruction and the rest, none where fewer than four bytes are left (R52, R80). -/
def decodeBytes (c : Config) : List Byte → Option (Except DecodeError (Instr × List Byte))
  | b0 :: b1 :: b2 :: b3 :: rest =>
    match decode c (wordOfBytes b0 b1 b2 b3) with
    | .error e => some (.error e)
    | .ok i => some (.ok (i, rest))
  | _ => none

/-- The host's question: what the decoder reads from an instruction whose bits are `w`, laid out as the hardware stores it. -/
def decodeTableWord (nbits w : Nat) : Option Instr :=
  match decodeBytes Config.default (bytesOfWord (BitVec.ofNat 32 (w % 2 ^ nbits))) with
  | some (.ok (i, _)) => some i
  | _ => none

/-! ## Encode -/

/-- The decoded instruction as the tagged record of R84. -/
structure Record where
  opcode : Opcode
  /-- `instruction_type`. -/
  shape : Shape
  dest : Option RegIx
  source : Option RegIx
  /-- The sign-extended 32-bit immediate. -/
  immediate : Option Word
  /-- The 16-bit unsigned jump target. -/
  address : Option Half
  deriving DecidableEq, Repr

/-- A NO_OPERANDS record: no field is populated (R82). -/
def recordNone (op : Opcode) : Record := ⟨op, op.shape, none, none, none, none⟩

/-- A record of REG_REG, of LOAD (`src` is the base) or of STORE (`dest` is the base) (R82, R84). -/
def recordTwoRegs (op : Opcode) (dest src : RegIx) : Record := ⟨op, op.shape, some dest, some src, none, none⟩

/-- A REG_IMM record (R82). -/
def recordRegImm (op : Opcode) (dest : RegIx) (imm : Word) : Record := ⟨op, op.shape, some dest, none, some imm, none⟩

/-- A REG_UNARY record (R82). -/
def recordRegUnary (op : Opcode) (dest : RegIx) : Record := ⟨op, op.shape, some dest, none, none, none⟩

/-- A JUMP record: only `address` is populated (R84). -/
def recordJump (op : Opcode) (addr : Half) : Record := ⟨op, op.shape, none, none, none, some addr⟩

/-- The record of an instruction (R84). -/
def Instr.record : Instr → Record
  | .nop => recordNone .nop
  | .halt => recordNone .halt
  | .clc => recordNone .clc
  | .stc => recordNone .stc
  | .movReg dest src => recordTwoRegs .movReg dest src
  | .movImm dest imm => recordRegImm .movImm dest imm
  | .load dest base => recordTwoRegs .load dest base
  | .store base src => recordTwoRegs .store base src
  | .addReg dest src => recordTwoRegs .addReg dest src
  | .addImm dest imm => recordRegImm .addImm dest imm
  | .subReg dest src => recordTwoRegs .subReg dest src
  | .subImm dest imm => recordRegImm .subImm dest imm
  | .mulReg dest src => recordTwoRegs .mulReg dest src
  | .mulImm dest imm => recordRegImm .mulImm dest imm
  | .divReg dest src => recordTwoRegs .divReg dest src
  | .divImm dest imm => recordRegImm .divImm dest imm
  | .addcReg dest src => recordTwoRegs .addcReg dest src
  | .addcImm dest imm => recordRegImm .addcImm dest imm
  | .subcReg dest src => recordTwoRegs .subcReg dest src
  | .subcImm dest imm => recordRegImm .subcImm dest imm
  | .andReg dest src => recordTwoRegs .andReg dest src
  | .andImm dest imm => recordRegImm .andImm dest imm
  | .orReg dest src => recordTwoRegs .orReg dest src
  | .orImm dest imm => recordRegImm .orImm dest imm
  | .xorReg dest src => recordTwoRegs .xorReg dest src
  | .xorImm dest imm => recordRegImm .xorImm dest imm
  | .notReg dest => recordRegUnary .notReg dest
  | .shlReg dest src => recordTwoRegs .shlReg dest src
  | .shlImm dest imm => recordRegImm .shlImm dest imm
  | .shrReg dest src => recordTwoRegs .shrReg dest src
  | .shrImm dest imm => recordRegImm .shrImm dest imm
  | .sarReg dest src => recordTwoRegs .sarReg dest src
  | .sarImm dest imm => recordRegImm .sarImm dest imm
  | .rolReg dest src => recordTwoRegs .rolReg dest src
  | .rolImm dest imm => recordRegImm .rolImm dest imm
  | .rorReg dest src => recordTwoRegs .rorReg dest src
  | .rorImm dest imm => recordRegImm .rorImm dest imm
  | .cmpReg dest src => recordTwoRegs .cmpReg dest src
  | .cmpImm dest imm => recordRegImm .cmpImm dest imm
  | .jmp addr => recordJump .jmp addr
  | .jz addr => recordJump .jz addr
  | .jnz addr => recordJump .jnz addr
  | .jc addr => recordJump .jc addr
  | .jnc addr => recordJump .jnc addr
  | .js addr => recordJump .js addr
  | .jns addr => recordJump .jns addr

/-- The `reg1` field of the encoding: the destination, or for STORE the base; 0 where the class has none (R94, decision D26). -/
def Record.reg1 (r : Record) : Byte :=
  match r.dest with
  | some d => BitVec.ofNat 8 d.val
  | none => 0

/-- The `operand` field of the encoding: the second register with a zero high byte, `imm[15:0]`, the address, or 0 (R94). -/
def Record.operand (r : Record) : Half :=
  match r.source, r.immediate, r.address with
  | some s, _, _ => BitVec.ofNat 16 s.val
  | none, some imm, _ => BitVec.setWidth 16 imm
  | none, none, some a => a
  | none, none, none => 0

/-- Encode: the canonical word of a representable instruction, none for anything else (R94). -/
def encode (c : Config) (i : Instr) : Option Word :=
  if wellFormed c i then
    match c.number i.opcode with
    | some n => some (packFields n i.record.reg1 i.record.operand)
    | none => none
  else none

/-- A word with every bit its class does not read set to 0 (R88). -/
def canonical (op : Opcode) (w : Word) : Word :=
  match op.shape with
  | .noOperands => packFields (opcodeField w) 0 0
  | .regReg | .load | .store => packFields (opcodeField w) (reg1Field w) (BitVec.setWidth 16 (reg2Field w))
  | .regImm => w
  | .regUnary => packFields (opcodeField w) (reg1Field w) 0
  | .jump => packFields (opcodeField w) 0 (operandField w)

end Sys2Proof
end

