-- ==== Sys2Proof/Machine/State.lean ====
section
/-! DEFINITION. The state of a core instance (spec/10_state.md R20 to R38), the fault kinds (spec/60_exceptions.md R270), and the state
right after construction with the default parameters. -/

namespace Sys2Proof.Machine

/-- The fault kinds of R270, each with the information recorded. None of them stops the model: a fault of a step is a NEXT state with the
fault in the field `faulted` (notes/assumptions/5.md), and a fault of a host operation is that operation's reply. -/
inductive Fault where
  /-- Raised by LOAD, STORE and the host's memory port: an access outside memory; `addr` is the address (R273). Safe: the spec reports it. -/
  | outOfRange (addr : Nat)
  /-- Raised by LOAD, STORE and the host's word port: an address in range that is no multiple of 4 (R274). Safe: the spec reports it. -/
  | misaligned (addr : Nat)
  /-- Raised by decode: the opcode byte is no key of `OPCODE_MAP` (R275). Safe: the spec reports it. -/
  | unknownOpcode (opcode : Byte)
  /-- Raised by decode and by the host's register port: an index outside the valid set (R277). Safe: the spec reports it. -/
  | invalidRegister (index : Nat)
  /-- Raised by fetch: `pc` is out of range or misaligned; `info` is `pc` (R276). Safe: the spec reports it. Its second cause, an
  opcode without a handler, cannot occur (R92). -/
  | invalidInstruction (info : Nat)
  /-- Raised by the two DIV forms: the divisor is 0 (R278). Safe: the spec reports it. -/
  | divisionByZero
  /-- The refusal of a `load_program` call; never raised by a step (R279). Safe: the spec reports it. -/
  | programTooLarge
  /-- Raised at the flag block's named access; never raised by a step (R279, R41). Safe: the spec reports it. -/
  | flagError (name : String)
  deriving DecidableEq, Repr

/-- The reasons `exec` can refuse an instruction. Every instruction of the opcode table has its meaning, so no arm refuses. -/
inductive Refusal where
  /-- Answered by an arm of `exec` whose instruction has no meaning yet. Safe: the model stops. -/
  | notModelled (mnemonic : String)
  deriving DecidableEq, Repr

/-- The five condition flags (R28). -/
structure Flags where
  /-- Zero. -/
  z : Bool
  /-- Sign. -/
  s : Bool
  /-- Carry, and borrow after a subtraction. -/
  c : Bool
  /-- Overflow. -/
  o : Bool
  /-- Parity. -/
  p : Bool
  deriving DecidableEq, Repr

/-- Memory (R35, R50): the bytes that are not 0x00, as (address, byte) pairs with strictly rising addresses. An address that is not
listed reads as 0x00. DESIGN CHOICE, unsafe (notes/assumptions/3.md). -/
abbrev Memory := List Host.Cell

/-- The state of a core instance. -/
structure State where
  /-- `x[0]` to `x[8]`; entry 8 is SP (R20, R21). -/
  regs : Vector Word 9
  /-- The address of the next instruction to fetch (R25). -/
  pc : Word
  /-- The last fetched instruction word (R27). -/
  ir : Word
  /-- The flags (R28). -/
  flags : Flags
  /-- Set by the host's `run`, cleared by HALT and by every fault (R30). -/
  running : Bool
  /-- Set by HALT, cleared by reset (R31). -/
  halted : Bool
  /-- The number of instructions executed successfully (R32). -/
  cycleCount : Nat
  /-- The bytes of memory (R35). -/
  mem : Memory
  /-- The parameters of the instance, which nothing changes (R6; notes/assumptions/1.md). -/
  params : Config
  /-- The MODEL's own field: the outcome of the last step that was not idle, none for `Executed` and `some f` for `Fault f` (R283, D14;
  notes/assumptions/5.md, 6.md). -/
  faulted : Option Fault
  deriving DecidableEq, Repr

/-- The three answers of one step. -/
abbrev Result := Host.Outcome State Fault Refusal

/-- The flags after reset (R38). -/
def Flags.clear : Flags := ⟨false, false, false, false, false⟩

/-- The registers after reset: all 0 but SP, which holds `STACK_BASE`, masked to 32 bits like every register write (R23, R38, R39;
notes/assumptions/7.md). -/
def resetRegs (c : Config) : Vector Word 9 := (Vector.replicate 9 0).set 8 (mask32 (Int.ofNat c.stackBase))

/-- The machine right after construction with the default parameters (R38, R311): SP is 0x3F000 (notes/assumptions/2.md) and every byte
of memory reads 0x00 (notes/assumptions/3.md). -/
def State.reset : State where
  regs := resetRegs Config.default
  pc := 0
  ir := 0
  flags := Flags.clear
  running := false
  halted := false
  cycleCount := 0
  mem := []
  params := Config.default
  faulted := none

end Sys2Proof.Machine
end

