-- ==== Sys2Proof/Machine/Flags.lean ====
section
/-! DEFINITION. The flag-derivation routines (spec/41_alu.md R140 to R149). Each takes the flags before and gives the flags after; a flag
a rule does not mention keeps its value. -/

namespace Sys2Proof.Machine

/-- `popcount(v)`: the number of 1 bits (R8). -/
def popcount {n : Nat} (v : BitVec n) : Nat := (List.range n).countP (fun i => v.getLsbD i)

/-- `P`: 1 iff the low byte has an even number of 1 bits (R140, decision D19). -/
def parity (r : Word) : Bool := decide (popcount (BitVec.extractLsb' 0 8 r) % 2 = 0)

/-- `basic_update(r)`: Z, S and P from the result (R140). -/
def basicUpdate (r : Word) (f : Flags) : Flags :=
  { f with z := decide (r = 0#32), s := r.getLsbD 31, p := parity r }

/-- `arithmetic_update(a, b, r, ADD)` (R141). -/
def addUpdate (a b r : Word) (f : Flags) : Flags :=
  { basicUpdate r f with
    c := decide (a.toNat + b.toNat > 0xFFFFFFFF)
    o := decide (a.getLsbD 31 = b.getLsbD 31 ∧ r.getLsbD 31 ≠ a.getLsbD 31) }

/-- `arithmetic_update(a, b, r, SUB)`, the same function as for CMP (R142): C is a borrow. -/
def subUpdate (a b r : Word) (f : Flags) : Flags :=
  { basicUpdate r f with
    c := decide (a.toNat < b.toNat)
    o := decide (a.getLsbD 31 ≠ b.getLsbD 31 ∧ r.getLsbD 31 ≠ a.getLsbD 31) }

/-- `logical_update(r)` (R143). -/
def logicalUpdate (r : Word) (f : Flags) : Flags := { basicUpdate r f with c := false, o := false }

/-- `shift_update(r, carry_out)` (R144). -/
def shiftUpdate (r : Word) (carryOut : Bool) (f : Flags) : Flags := { basicUpdate r f with c := carryOut, o := false }

/-- `shift_left_update(original, count, r)`, for a count of 0 to 31 (R145). -/
def shiftLeftUpdate (original : Word) (count : Nat) (r : Word) (f : Flags) : Flags :=
  if count = 0 then basicUpdate r f else shiftUpdate r (original.getLsbD (32 - count)) f

/-- `shift_right_update(original, count, r)` (R146); a bit above 31 reads as 0 (R160). -/
def shiftRightUpdate (original : Word) (count : Nat) (r : Word) (f : Flags) : Flags :=
  if count = 0 then basicUpdate r f else shiftUpdate r (original.getLsbD (count - 1)) f

/-- `rotate_update(r, carry_out)`, "identical to shift_update" (R147). -/
def rotateUpdate (r : Word) (carryOut : Bool) (f : Flags) : Flags := shiftUpdate r carryOut f

/-- `multiplication_update(r, full)` (R148). -/
def multiplicationUpdate (r : Word) (full : Nat) (f : Flags) : Flags :=
  { basicUpdate r f with c := decide (full > 0xFFFFFFFF), o := false }

/-- `division_update(q)` (R149). -/
def divisionUpdate (q : Word) (f : Flags) : Flags := { basicUpdate q f with c := false, o := false }

end Sys2Proof.Machine
end

