-- ==== Sys2Proof/Machine/Ops.lean ====
section
/-! DEFINITION. The named operations over memory and registers (spec/20_memory.md R50 to R58, spec/10_state.md R20 to R23), fetch (spec/40_cycle.md
R122), the two ways the Execute phase ends (R125, spec/60_exceptions.md R272), and the report of a step (R120). -/

namespace Sys2Proof.Machine

/-! ## Bytes of memory -/

/-- The byte at an address; 0x00 where the address is not listed (R50; notes/assumptions/3.md). -/
def Memory.byte : Memory → Nat → Byte
  | [], _ => 0#8
  | (k, v) :: rest, a => if a = k then v else Memory.byte rest a

/-- `M[a] <- b` (R55), keeping the canonical form: writing 0x00 removes the entry. -/
def Memory.setByte : Memory → Nat → Byte → Memory
  | [], a, b => if b = 0#8 then [] else [(a, b)]
  | (k, v) :: rest, a, b =>
    if a < k then (if b = 0#8 then (k, v) :: rest else (a, b) :: (k, v) :: rest)
    else if a = k then (if b = 0#8 then rest else (a, b) :: rest)
    else (k, v) :: Memory.setByte rest a b

/-- The canonical form from a lower bound on: addresses rise strictly from `lo`, and no listed byte is 0x00. -/
def Memory.wfFrom : Nat → Memory → Bool
  | _, [] => true
  | lo, (k, v) :: rest => decide (lo ≤ k) && decide (v ≠ 0#8) && Memory.wfFrom (k + 1) rest

/-- The canonical form: strictly rising addresses, no entry equal to what an unlisted address reads as. -/
def Memory.wf (m : Memory) : Bool := Memory.wfFrom 0 m

/-- Every listed address is below `size`, the extent of the address space (R35). -/
def Memory.inside (m : Memory) (size : Nat) : Bool := m.all (fun cell => decide (cell.1 < size))

/-- The little-endian word of the four bytes from an address on (R51). -/
def Memory.word (m : Memory) (a : Nat) : Word :=
  wordOfBytes (Memory.byte m a) (Memory.byte m (a + 1)) (Memory.byte m (a + 2)) (Memory.byte m (a + 3))

/-- The four byte writes of a word write, in the order of R57. -/
def Memory.setWord (m : Memory) (a : Nat) (v : Word) : Memory :=
  Memory.setByte (Memory.setByte (Memory.setByte (Memory.setByte m a (byteOfWord v 0)) (a + 1) (byteOfWord v 1))
    (a + 2) (byteOfWord v 2)) (a + 3) (byteOfWord v 3)

/-- Bytes written one at a time from an address on (R320). -/
def Memory.setBytes : Memory → Nat → List Byte → Memory
  | m, _, [] => m
  | m, a, b :: rest => Memory.setBytes (Memory.setByte m a b) (a + 1) rest

/-! ## The four accessors -/

/-- The checks of a word access: range first, on unbounded integers, then alignment (R56, R57, decision D15). -/
def wordCheck (size addr : Nat) : Option Fault :=
  if size < addr + 4 then some (.outOfRange addr)
  else if addr % 4 ≠ 0 then some (.misaligned addr)
  else none

/-- `MemRead(addr, 1)` (R54). -/
def readByte (addr : Nat) (s : State) : Except Fault Byte :=
  if s.params.memSize ≤ addr then .error (.outOfRange addr) else .ok (Memory.byte s.mem addr)

/-- `v[7:0]` of a value of any width (R7, R55); a negative value is in two's complement (notes/assumptions/17.md). -/
def lowByte (v : Int) : Byte := BitVec.ofInt 8 v

/-- `MemWrite(addr, 1, v)`: `M[addr] <- v[7:0]`, whatever the width of `v` (R55). -/
def writeByte (addr : Nat) (v : Int) (s : State) : Except Fault State :=
  if s.params.memSize ≤ addr then .error (.outOfRange addr)
  else .ok { s with mem := Memory.setByte s.mem addr (lowByte v) }

/-- `MemRead(addr, 4)` (R56). -/
def readWord (addr : Nat) (s : State) : Except Fault Word :=
  match wordCheck s.params.memSize addr with
  | some f => .error f
  | none => .ok (Memory.word s.mem addr)

/-- `MemWrite(addr, 4, v)` (R57): a write that raises changes no byte. -/
def writeWord (addr : Nat) (v : Word) (s : State) : Except Fault State :=
  match wordCheck s.params.memSize addr with
  | some f => .error f
  | none => .ok { s with mem := Memory.setWord s.mem addr v }

/-! ## Registers and flags -/

/-- `x[i]` (R8, R22). -/
def State.x (s : State) (i : RegIx) : Word := s.regs[i.val]

/-- `x[i] <- v` (R8, R23). -/
def State.setX (s : State) (i : RegIx) (v : Word) : State := { s with regs := s.regs.set i.val v }

/-- `sp`, the same cell as `x[8]` (R21). -/
def State.sp (s : State) : Word := State.x s spIx

/-- The flag block replaced by what an ALU operation leaves. -/
def State.setFlags (s : State) (f : Flags) : State := { s with flags := f }

/-- `pc <- target` (R8). -/
def State.setPc (s : State) (target : Word) : State := { s with pc := target }

/-! ## The ends of a step -/

/-- The Execute phase returned: `cycle_count <- cycle_count + 1`, outcome `Executed` (R120, R125). -/
def retire (s : State) : Result := .next { s with cycleCount := s.cycleCount + 1, faulted := none }

/-- Taking a fault, `raise K(info)`: nothing more is written, `running <- 0`, and the outcome is `Fault(K, info)` (R272, R280). It
vectors nowhere and saves nothing (R282), so there is no return from it: a later step runs from the current `pc` (R283). -/
def raiseFault (f : Fault) (s : State) : Result := .next { s with running := false, faulted := some f }

/-! ## Fetch and decode -/

/-- The word at `pc`, where both faults of the read are reported as InvalidInstruction with `pc` (R122, R276). -/
def fetchWord (s : State) : Except Fault Word :=
  match readWord s.pc.toNat s with
  | .ok w => .ok w
  | .error _ => .error (.invalidInstruction s.pc.toNat)

/-- After a successful read: `ir <- w` and `pc <- (pc + 4) mod 2^32` (R26, R27, R120). -/
def afterFetch (w : Word) (s : State) : State := { s with ir := w, pc := s.pc + 4 }

/-- The fault a decode error is reported as (R123, R270). -/
def decodeFault : DecodeError → Fault
  | .unknownOpcode op => .unknownOpcode op
  | .invalidRegister r => .invalidRegister r.toNat

/-- A word stored at `pc`, where the next fetch reads it. -/
def placeAtPc (w : Word) (s : State) : State := { s with mem := Memory.setWord s.mem s.pc.toNat w }

/-! ## What the host sees of a step -/

/-- The outcome of a step (R120, R126). -/
inductive Report where
  /-- The core was halted. -/
  | idle
  /-- One instruction executed. -/
  | executed
  /-- The step faulted. -/
  | fault (f : Fault)
  deriving DecidableEq, Repr

/-- The outcome of the step that led from `s` to `t` (R120; notes/assumptions/5.md). -/
def report (s t : State) : Report :=
  if s.halted then .idle
  else match t.faulted with
    | none => .executed
    | some f => .fault f

/-- The spec's own number of a fault kind (R270, decision D13). -/
def Fault.code : Fault → Nat
  | .outOfRange _ => 1
  | .misaligned _ => 2
  | .unknownOpcode _ => 3
  | .invalidRegister _ => 4
  | .invalidInstruction _ => 5
  | .divisionByZero => 6
  | .programTooLarge => 7
  | .flagError _ => 8

end Sys2Proof.Machine
end

