-- ==== Sys2Proof/Machine/Operands.lean ====
section
/-! DEFINITION. The operand forms (spec/40_cycle.md R127, spec/43_data_movement.md R194): register, immediate, register indirect, absolute
address; and the effective count of the shifts and rotates (spec/46_shift_rotate.md R229, spec/41_alu.md R160). -/

namespace Sys2Proof.Machine

/-- The second operand `b` of a `_REG` form: `x[src]` (R127). -/
def regOperand (src : RegIx) (s : State) : Word := State.x s src

/-- The second operand `b` of an `_IMM` form: the sign-extended immediate, for every operation alike (R127, R85;
notes/assumptions/16.md). -/
def immOperand (imm : Word) : Word := imm

/-- The address of a register-indirect access: the base register's value, with no displacement (R192, R193, R194). -/
def indirectAddress (base : RegIx) (s : State) : Nat := (State.x s base).toNat

/-- The target of a jump: absolute, zero-extended (R255, R86). -/
def jumpTarget (addr : Half) : Word := BitVec.setWidth 32 addr

/-- The effective count `c = b & 31` (R229). -/
def effectiveCount (b : Word) : Nat := (b &&& 31#32).toNat

/-- The count of SAR: masked to 5 bits when `SAR_MASKS_COUNT`, else whole (R160, decision D16). -/
def sarCount (masks : Bool) (b : Word) : Nat := if masks then effectiveCount b else b.toNat

end Sys2Proof.Machine
end

