-- ==== Sys2Proof/Machine/Alu.lean ====
section
/-! DEFINITION. The ALU operations (spec/41_alu.md R150 to R166). Each takes its operands and the flags before, and gives the masked result
with the flags after; it touches nothing else (R150). -/

namespace Sys2Proof.Machine

/-- `add(a, b)` (R151). -/
def aluAdd (a b : Word) (f : Flags) : Word × Flags :=
  let r := BitVec.ofNat 32 (a.toNat + b.toNat)
  (r, addUpdate a b r f)

/-- `sub(a, b)` (R152). -/
def aluSub (a b : Word) (f : Flags) : Word × Flags :=
  let r := mask32 (Int.ofNat a.toNat - Int.ofNat b.toNat)
  (r, subUpdate a b r f)

/-- `mul(a, b)`: the low 32 bits of the unsigned 64-bit product (R153). -/
def aluMul (a b : Word) (f : Flags) : Word × Flags :=
  let full := a.toNat * b.toNat
  let r := BitVec.ofNat 32 full
  (r, multiplicationUpdate r full f)

/-- `div(a, b)`: none where `b = 0` (DivisionByZero, before anything else; decision D32), else the unsigned quotient, the remainder and
the flags, which the remainder does not affect (R154). -/
def aluDiv (a b : Word) (f : Flags) : Option (Word × Word × Flags) :=
  if b = 0#32 then none
  else
    let q := BitVec.ofNat 32 (a.toNat / b.toNat)
    some (q, BitVec.ofNat 32 (a.toNat % b.toNat), divisionUpdate q f)

/-- `compare(a, b)`: the flags of `sub(a, b)`, the difference discarded (R155). -/
def aluCompare (a b : Word) (f : Flags) : Flags :=
  let r := mask32 (Int.ofNat a.toNat - Int.ofNat b.toNat)
  subUpdate a b r f

/-- `logical_and(a, b)` (R156). -/
def aluAnd (a b : Word) (f : Flags) : Word × Flags := (a &&& b, logicalUpdate (a &&& b) f)

/-- `logical_or(a, b)` (R156). -/
def aluOr (a b : Word) (f : Flags) : Word × Flags := (a ||| b, logicalUpdate (a ||| b) f)

/-- `logical_xor(a, b)` (R156). -/
def aluXor (a b : Word) (f : Flags) : Word × Flags := (a ^^^ b, logicalUpdate (a ^^^ b) f)

/-- `logical_not(a)`: `a ^ 0xFFFFFFFF` (R157). -/
def aluNot (a : Word) (f : Flags) : Word × Flags := (a ^^^ 0xFFFFFFFF#32, logicalUpdate (a ^^^ 0xFFFFFFFF#32) f)

/-- `shift_left(a, count)`; the flag routine receives the masked count (R158, decision D18). -/
def aluShl (a count : Word) (f : Flags) : Word × Flags :=
  let c := effectiveCount count
  let r := a <<< c
  (r, shiftLeftUpdate a c r f)

/-- `shift_right(a, count)`, zeros shifted in (R159). -/
def aluShr (a count : Word) (f : Flags) : Word × Flags :=
  let c := effectiveCount count
  let r := a >>> c
  (r, shiftRightUpdate a c r f)

/-- `arithmetic_shift_right(a, count)`: `floor(signed(a) / 2^c)`, with the carry from the unsigned original (R160). -/
def aluSar (masks : Bool) (a count : Word) (f : Flags) : Word × Flags :=
  let c := sarCount masks count
  let r := BitVec.sshiftRight a c
  (r, shiftRightUpdate a c r f)

/-- `rotate_left(a, count)`: a count of 0 changes no flag at all; else C is the bit that arrives in bit 0 (R161, decision D17). -/
def aluRol (a count : Word) (f : Flags) : Word × Flags :=
  let c := effectiveCount count
  if c = 0 then (a, f)
  else
    let r := (a <<< c) ||| (a >>> (32 - c))
    (r, rotateUpdate r (r.getLsbD 0) f)

/-- `rotate_right(a, count)`: a count of 0 changes no flag at all; else C is the bit that arrives in bit 31 (R162, decision D17). -/
def aluRor (a count : Word) (f : Flags) : Word × Flags :=
  let c := effectiveCount count
  if c = 0 then (a, f)
  else
    let r := (a >>> c) ||| (a <<< (32 - c))
    (r, rotateUpdate r (r.getLsbD 31) f)

/-- `add_with_carry(a, b)`: Z, S, P and C only; O keeps its value (R163). -/
def aluAddc (a b : Word) (f : Flags) : Word × Flags :=
  let full := a.toNat + b.toNat + f.c.toNat
  let r := BitVec.ofNat 32 full
  (r, { basicUpdate r f with c := decide (full > 0xFFFFFFFF) })

/-- `sub_with_carry(a, b)`: Z, S, P and C (a borrow) only; O keeps its value (R164). -/
def aluSubc (a b : Word) (f : Flags) : Word × Flags :=
  let full := Int.ofNat a.toNat - Int.ofNat b.toNat - Int.ofNat f.c.toNat
  let r := mask32 full
  (r, { basicUpdate r f with c := decide (full < 0) })

/-- `clear_carry()` (R165). -/
def clearCarry (f : Flags) : Flags := { f with c := false }

/-- `set_carry()` (R166). -/
def setCarry (f : Flags) : Flags := { f with c := true }

/-! ## The handler shapes (R124, R127) -/

/-- A two-operand handler: `a = x[dest]` and `b` are read, then the result goes back to `dest` and the flags to the flag block (R124). -/
def binaryOp (op : Word → Word → Flags → Word × Flags) (dest : RegIx) (b : Word) (s : State) : Result :=
  let r := op (State.x s dest) b s.flags
  retire (State.setFlags (State.setX s dest r.1) r.2)

/-- A DIV handler: DivisionByZero where the divisor is 0, else the quotient to `dest`, the remainder discarded (R206, R207, R212). -/
def divideOp (dest : RegIx) (b : Word) (s : State) : Result :=
  match aluDiv (State.x s dest) b s.flags with
  | none => raiseFault .divisionByZero s
  | some (q, _, f) => retire (State.setFlags (State.setX s dest q) f)

/-- A CMP handler: the flags only (R250, R251). -/
def compareOp (dest : RegIx) (b : Word) (s : State) : Result :=
  retire (State.setFlags s (aluCompare (State.x s dest) b s.flags))

/-- A conditional jump: taken, `pc` is the target; not taken, `pc` keeps its advanced value (R255). -/
def jumpIf (taken : Bool) (addr : Half) (s : State) : Result :=
  retire (if taken then State.setPc s (jumpTarget addr) else s)

end Sys2Proof.Machine
end

