-- ==== Sys2Proof/Machine/Arithmetic.lean ====
section
/-! DEFINITION. ADD, SUB, MUL, DIV, ADDC, SUBC (spec/44_arithmetic.md R200 to R211): the Execute phase of each, entered with `pc` already advanced by 4. -/

namespace Sys2Proof.Machine

/-- `ADD Rd,Rs` (R200). -/
def execAddReg (dest src : RegIx) (s : State) : Result := binaryOp aluAdd dest (regOperand src s) s

/-- `ADD Rd,#imm` (R201). -/
def execAddImm (dest : RegIx) (imm : Word) (s : State) : Result := binaryOp aluAdd dest (immOperand imm) s

/-- `SUB Rd,Rs` (R202). -/
def execSubReg (dest src : RegIx) (s : State) : Result := binaryOp aluSub dest (regOperand src s) s

/-- `SUB Rd,#imm` (R203). -/
def execSubImm (dest : RegIx) (imm : Word) (s : State) : Result := binaryOp aluSub dest (immOperand imm) s

/-- `MUL Rd,Rs` (R204). -/
def execMulReg (dest src : RegIx) (s : State) : Result := binaryOp aluMul dest (regOperand src s) s

/-- `MUL Rd,#imm` (R205). -/
def execMulImm (dest : RegIx) (imm : Word) (s : State) : Result := binaryOp aluMul dest (immOperand imm) s

/-- `DIV Rd,Rs` (R206). -/
def execDivReg (dest src : RegIx) (s : State) : Result := divideOp dest (regOperand src s) s

/-- `DIV Rd,#imm` (R207). -/
def execDivImm (dest : RegIx) (imm : Word) (s : State) : Result := divideOp dest (immOperand imm) s

/-- `ADDC Rd,Rs` (R208). -/
def execAddcReg (dest src : RegIx) (s : State) : Result := binaryOp aluAddc dest (regOperand src s) s

/-- `ADDC Rd,#imm` (R209). -/
def execAddcImm (dest : RegIx) (imm : Word) (s : State) : Result := binaryOp aluAddc dest (immOperand imm) s

/-- `SUBC Rd,Rs` (R210). -/
def execSubcReg (dest src : RegIx) (s : State) : Result := binaryOp aluSubc dest (regOperand src s) s

/-- `SUBC Rd,#imm` (R211). -/
def execSubcImm (dest : RegIx) (imm : Word) (s : State) : Result := binaryOp aluSubc dest (immOperand imm) s

end Sys2Proof.Machine
end

