-- ==== Sys2Proof/Machine/Compare.lean ====
section
/-! DEFINITION. CMP (spec/47_compare.md R250, R251): the Execute phase of each, entered with `pc` already advanced by 4. -/

namespace Sys2Proof.Machine

/-- `CMP Rd,Rs` (R250). -/
def execCmpReg (dest src : RegIx) (s : State) : Result := compareOp dest (regOperand src s) s

/-- `CMP Rd,#imm` (R251). -/
def execCmpImm (dest : RegIx) (imm : Word) (s : State) : Result := compareOp dest (immOperand imm) s

end Sys2Proof.Machine
end

