-- ==== Sys2Proof/Machine/DataMovement.lean ====
section
/-! DEFINITION. MOV_REG, MOV_IMM, LOAD, STORE (spec/43_data_movement.md R190 to R193): the Execute phase of each, entered with `pc` already advanced by 4. -/

namespace Sys2Proof.Machine

/-- `MOV Rd,Rs`: `x[d] <- x[s]`, no flag written (R190). -/
def execMovReg (dest src : RegIx) (s : State) : Result := retire (State.setX s dest (regOperand src s))

/-- `MOV Rd,#imm`: `x[d] <- imm`, no flag written (R191). -/
def execMovImm (dest : RegIx) (imm : Word) (s : State) : Result := retire (State.setX s dest (immOperand imm))

/-- `LOAD Rd,[Rs]`: the word at `x[s]`; OutOfRange or Misaligned leaves `x[d]` unwritten (R192). -/
def execLoad (dest base : RegIx) (s : State) : Result :=
  match readWord (indirectAddress base s) s with
  | .error f => raiseFault f s
  | .ok v => retire (State.setX s dest v)

/-- `STORE [Rd],Rs`: the word `x[s]` at the address `x[d]`; OutOfRange or Misaligned changes no byte (R193). -/
def execStore (base src : RegIx) (s : State) : Result :=
  match writeWord (indirectAddress base s) (State.x s src) s with
  | .error f => raiseFault f s
  | .ok s' => retire s'

end Sys2Proof.Machine
end

