-- ==== Sys2Proof/Machine/Jumps.lean ====
section
/-! DEFINITION. JMP, JZ, JNZ, JC, JNC, JS, JNS (spec/48_jumps.md R256 to R262): the Execute phase of each, entered with `pc` already advanced by 4. -/

namespace Sys2Proof.Machine

/-- `JMP addr`: pc <- addr (R256). -/
def execJmp (addr : Half) (s : State) : Result := jumpIf true addr s

/-- `JZ addr`: taken iff Z = 1 (R257). -/
def execJz (addr : Half) (s : State) : Result := jumpIf s.flags.z addr s

/-- `JNZ addr`: taken iff Z = 0 (R258). -/
def execJnz (addr : Half) (s : State) : Result := jumpIf (!s.flags.z) addr s

/-- `JC addr`: taken iff C = 1 (R259). -/
def execJc (addr : Half) (s : State) : Result := jumpIf s.flags.c addr s

/-- `JNC addr`: taken iff C = 0 (R260). -/
def execJnc (addr : Half) (s : State) : Result := jumpIf (!s.flags.c) addr s

/-- `JS addr`: taken iff S = 1 (R261). -/
def execJs (addr : Half) (s : State) : Result := jumpIf s.flags.s addr s

/-- `JNS addr`: taken iff S = 0 (R262). -/
def execJns (addr : Half) (s : State) : Result := jumpIf (!s.flags.s) addr s

end Sys2Proof.Machine
end

