-- ==== Sys2Proof/Machine/Logic.lean ====
section
/-! DEFINITION. AND, OR, XOR, NOT (spec/45_logic.md R220 to R226): the Execute phase of each, entered with `pc` already advanced by 4. -/

namespace Sys2Proof.Machine

/-- `AND Rd,Rs` (R220). -/
def execAndReg (dest src : RegIx) (s : State) : Result := binaryOp aluAnd dest (regOperand src s) s

/-- `AND Rd,#imm` (R221). -/
def execAndImm (dest : RegIx) (imm : Word) (s : State) : Result := binaryOp aluAnd dest (immOperand imm) s

/-- `OR Rd,Rs` (R222). -/
def execOrReg (dest src : RegIx) (s : State) : Result := binaryOp aluOr dest (regOperand src s) s

/-- `OR Rd,#imm` (R223). -/
def execOrImm (dest : RegIx) (imm : Word) (s : State) : Result := binaryOp aluOr dest (immOperand imm) s

/-- `XOR Rd,Rs` (R224). -/
def execXorReg (dest src : RegIx) (s : State) : Result := binaryOp aluXor dest (regOperand src s) s

/-- `XOR Rd,#imm` (R225). -/
def execXorImm (dest : RegIx) (imm : Word) (s : State) : Result := binaryOp aluXor dest (immOperand imm) s

/-- `NOT Rd`: `x[d] <- logical_not(x[d])` (R226). -/
def execNotReg (dest : RegIx) (s : State) : Result :=
  let r := aluNot (State.x s dest) s.flags
  retire (State.setFlags (State.setX s dest r.1) r.2)

end Sys2Proof.Machine
end

