-- ==== Sys2Proof/Machine/ShiftRotate.lean ====
section
/-! DEFINITION. SHL, SHR, SAR, ROL, ROR (spec/46_shift_rotate.md R230 to R239): the Execute phase of each, entered with `pc` already advanced by 4. -/

namespace Sys2Proof.Machine

/-- `SHL Rd,Rs` (R230). -/
def execShlReg (dest src : RegIx) (s : State) : Result := binaryOp aluShl dest (regOperand src s) s

/-- `SHL Rd,#imm` (R231). -/
def execShlImm (dest : RegIx) (imm : Word) (s : State) : Result := binaryOp aluShl dest (immOperand imm) s

/-- `SHR Rd,Rs` (R232). -/
def execShrReg (dest src : RegIx) (s : State) : Result := binaryOp aluShr dest (regOperand src s) s

/-- `SHR Rd,#imm` (R233). -/
def execShrImm (dest : RegIx) (imm : Word) (s : State) : Result := binaryOp aluShr dest (immOperand imm) s

/-- `SAR Rd,Rs` (R234). -/
def execSarReg (dest src : RegIx) (s : State) : Result := binaryOp (aluSar s.params.sarMasksCount) dest (regOperand src s) s

/-- `SAR Rd,#imm` (R235). -/
def execSarImm (dest : RegIx) (imm : Word) (s : State) : Result := binaryOp (aluSar s.params.sarMasksCount) dest (immOperand imm) s

/-- `ROL Rd,Rs` (R236). -/
def execRolReg (dest src : RegIx) (s : State) : Result := binaryOp aluRol dest (regOperand src s) s

/-- `ROL Rd,#imm` (R237). -/
def execRolImm (dest : RegIx) (imm : Word) (s : State) : Result := binaryOp aluRol dest (immOperand imm) s

/-- `ROR Rd,Rs` (R238). -/
def execRorReg (dest src : RegIx) (s : State) : Result := binaryOp aluRor dest (regOperand src s) s

/-- `ROR Rd,#imm` (R239). -/
def execRorImm (dest : RegIx) (imm : Word) (s : State) : Result := binaryOp aluRor dest (immOperand imm) s

end Sys2Proof.Machine
end

