-- ==== Sys2Proof/Machine/System.lean ====
section
/-! DEFINITION. NOP, HALT, CLC, STC (spec/42_system.md R180 to R183): the Execute phase of each, entered with `pc` already advanced by 4. -/

namespace Sys2Proof.Machine

/-- NOP: no effect (R180). -/
def execNop (s : State) : Result := retire s

/-- HALT: `halted <- 1`, `running <- 0` (R181). -/
def execHalt (s : State) : Result := retire { s with halted := true, running := false }

/-- CLC: `clear_carry()` (R182). -/
def execClc (s : State) : Result := retire (State.setFlags s (clearCarry s.flags))

/-- STC: `set_carry()` (R183). -/
def execStc (s : State) : Result := retire (State.setFlags s (setCarry s.flags))

end Sys2Proof.Machine
end

