-- ==== Sys2Proof/Machine/Dispatch.lean ====
section
/-! DEFINITION. The Execute phase's dispatch on the instruction (spec/40_cycle.md R124): every instruction has its handler (R92). -/

namespace Sys2Proof.Machine

/-- Execute one decoded instruction: one direct call of its handler (R124). -/
def exec (i : Instr) (s : State) : Host.Outcome State Fault Refusal :=
  match i with
  | .nop => Sys2Proof.Machine.execNop s
  | .halt => Sys2Proof.Machine.execHalt s
  | .clc => Sys2Proof.Machine.execClc s
  | .stc => Sys2Proof.Machine.execStc s
  | .movReg dest src => Sys2Proof.Machine.execMovReg dest src s
  | .movImm dest imm => Sys2Proof.Machine.execMovImm dest imm s
  | .load dest base => Sys2Proof.Machine.execLoad dest base s
  | .store base src => Sys2Proof.Machine.execStore base src s
  | .addReg dest src => Sys2Proof.Machine.execAddReg dest src s
  | .addImm dest imm => Sys2Proof.Machine.execAddImm dest imm s
  | .subReg dest src => Sys2Proof.Machine.execSubReg dest src s
  | .subImm dest imm => Sys2Proof.Machine.execSubImm dest imm s
  | .mulReg dest src => Sys2Proof.Machine.execMulReg dest src s
  | .mulImm dest imm => Sys2Proof.Machine.execMulImm dest imm s
  | .divReg dest src => Sys2Proof.Machine.execDivReg dest src s
  | .divImm dest imm => Sys2Proof.Machine.execDivImm dest imm s
  | .addcReg dest src => Sys2Proof.Machine.execAddcReg dest src s
  | .addcImm dest imm => Sys2Proof.Machine.execAddcImm dest imm s
  | .subcReg dest src => Sys2Proof.Machine.execSubcReg dest src s
  | .subcImm dest imm => Sys2Proof.Machine.execSubcImm dest imm s
  | .andReg dest src => Sys2Proof.Machine.execAndReg dest src s
  | .andImm dest imm => Sys2Proof.Machine.execAndImm dest imm s
  | .orReg dest src => Sys2Proof.Machine.execOrReg dest src s
  | .orImm dest imm => Sys2Proof.Machine.execOrImm dest imm s
  | .xorReg dest src => Sys2Proof.Machine.execXorReg dest src s
  | .xorImm dest imm => Sys2Proof.Machine.execXorImm dest imm s
  | .notReg dest => Sys2Proof.Machine.execNotReg dest s
  | .shlReg dest src => Sys2Proof.Machine.execShlReg dest src s
  | .shlImm dest imm => Sys2Proof.Machine.execShlImm dest imm s
  | .shrReg dest src => Sys2Proof.Machine.execShrReg dest src s
  | .shrImm dest imm => Sys2Proof.Machine.execShrImm dest imm s
  | .sarReg dest src => Sys2Proof.Machine.execSarReg dest src s
  | .sarImm dest imm => Sys2Proof.Machine.execSarImm dest imm s
  | .rolReg dest src => Sys2Proof.Machine.execRolReg dest src s
  | .rolImm dest imm => Sys2Proof.Machine.execRolImm dest imm s
  | .rorReg dest src => Sys2Proof.Machine.execRorReg dest src s
  | .rorImm dest imm => Sys2Proof.Machine.execRorImm dest imm s
  | .cmpReg dest src => Sys2Proof.Machine.execCmpReg dest src s
  | .cmpImm dest imm => Sys2Proof.Machine.execCmpImm dest imm s
  | .jmp addr => Sys2Proof.Machine.execJmp addr s
  | .jz addr => Sys2Proof.Machine.execJz addr s
  | .jnz addr => Sys2Proof.Machine.execJnz addr s
  | .jc addr => Sys2Proof.Machine.execJc addr s
  | .jnc addr => Sys2Proof.Machine.execJnc addr s
  | .js addr => Sys2Proof.Machine.execJs addr s
  | .jns addr => Sys2Proof.Machine.execJns addr s

end Sys2Proof.Machine
end

