-- ==== Sys2Proof/Machine/Step.lean ====
section
/-! DEFINITION. `step`, the one transition of the core (spec/40_cycle.md R120 to R126). -/

namespace Sys2Proof.Machine

/-- One `step()` (R120): nothing while halted (R121), else fetch (R122), decode (R123) and execute (R124). The Execute phase counts the
instruction (R125), and a fault of any phase is taken as R272 and R280 say. -/
def step (s : State) : Host.Outcome State Fault Refusal :=
  if s.halted then .next s
  else
    match fetchWord s with
    | .error f => raiseFault f s
    | .ok w =>
      match decode s.params w with
      | .error e => raiseFault (decodeFault e) (afterFetch w s)
      | .ok i => exec i (afterFetch w s)

/-- The host's question: the state with an instruction of `nbits` bits stored where `step` fetches next, which is the word at `pc`
(R26, R52). The step fetches it where the core is not halted and `pc` is aligned and in range, as after reset. It stands for
a load by the host (notes/assumptions/15.md). -/
def State.withFetchWord (s : State) (nbits w : Nat) : State := placeAtPc (BitVec.ofNat 32 (w % 2 ^ nbits)) s

end Sys2Proof.Machine
end

