-- ==== Sys2Proof/Machine/Assembler.lean ====
section
/-! DEFINITION. The assembler's grammar (spec/30_encoding.md R105 to R112), the mechanism by which programs reach the core. No rule of the core
depends on it (R112). Its lexical choices beyond the rules are notes/assumptions/12.md. -/

namespace Sys2Proof.Machine

/-! ## Tokens (R105) -/

/-- A blank or a comma separates tokens (R105). That a carriage return does too is a DESIGN CHOICE, safe (notes/assumptions/12.md). -/
def isSeparator (ch : Char) : Bool := ch == ' ' || ch == '\t' || ch == ',' || ch == '\r'

/-- Tokens of the rest of a line, with the current token so far reversed in `cur`. R105 speaks of separators between the mnemonic and the
operands only; that they are also accepted before the mnemonic and after the last operand, commas included, is a DESIGN CHOICE, safe
(notes/assumptions/12.md). -/
def tokensFrom : List Char → List Char → List (List Char)
  | [], cur => if cur.isEmpty then [] else [cur.reverse]
  | ch :: rest, cur =>
    if isSeparator ch then (if cur.isEmpty then tokensFrom rest [] else cur.reverse :: tokensFrom rest [])
    else tokensFrom rest (ch :: cur)

/-- The lines of a text, with the current line so far reversed in `cur`. -/
def linesFrom : List Char → List Char → List (List Char)
  | [], cur => [cur.reverse]
  | ch :: rest, cur => if ch == '\n' then cur.reverse :: linesFrom rest [] else linesFrom rest (ch :: cur)

/-! ## Operands (R106) -/

/-- The value of a decimal digit. -/
def decDigit (ch : Char) : Option Nat :=
  if '0'.toNat ≤ ch.toNat ∧ ch.toNat ≤ '9'.toNat then some (ch.toNat - '0'.toNat) else none

/-- The value of a hexadecimal digit, in either case: DESIGN CHOICE, safe (notes/assumptions/12.md). -/
def hexDigit (ch : Char) : Option Nat :=
  if 'a'.toNat ≤ ch.toNat ∧ ch.toNat ≤ 'f'.toNat then some (ch.toNat - 'a'.toNat + 10)
  else if 'A'.toNat ≤ ch.toNat ∧ ch.toNat ≤ 'F'.toNat then some (ch.toNat - 'A'.toNat + 10)
  else decDigit ch

/-- The digits of a number in a radix, most significant first, after the value read so far. Leading zeros are accepted: DESIGN CHOICE, safe
(notes/assumptions/12.md). -/
def digitsFrom (radix : Nat) (digit : Char → Option Nat) : List Char → Nat → Option Nat
  | [], acc => some acc
  | ch :: rest, acc =>
    match digit ch with
    | some d => digitsFrom radix digit rest (acc * radix + d)
    | none => none

/-- A decimal number, or a hexadecimal one after `0x` (R106). -/
def parseNat : List Char → Option Nat
  | '0' :: 'x' :: ch :: rest => digitsFrom 16 hexDigit (ch :: rest) 0
  | ch :: rest => digitsFrom 10 decDigit (ch :: rest) 0
  | [] => none

/-- A number, optionally negative (R106). -/
def parseInt : List Char → Option Int
  | '-' :: rest => (parseNat rest).map (fun n => - Int.ofNat n)
  | cs => (parseNat cs).map Int.ofNat

/-- A register digit 0 to 8 (R106, R112). -/
def parseRegDigit (ch : Char) : Option RegIx :=
  match decDigit ch with
  | some d => if h : d < 9 then some ⟨d, h⟩ else none
  | none => none

/-- The operand forms of R106. -/
inductive AsmOperand where
  /-- `Rn`. -/
  | reg (r : RegIx)
  /-- `#n`. -/
  | imm (n : Int)
  /-- `[Rn]`. -/
  | mem (r : RegIx)
  /-- A bare number, for jumps. -/
  | addr (n : Nat)
  deriving DecidableEq, Repr

/-- One operand (R106). -/
def parseOperand : List Char → Option AsmOperand
  | ['R', d] => (parseRegDigit d).map .reg
  | ['[', 'R', d, ']'] => (parseRegDigit d).map .mem
  | '#' :: rest => (parseInt rest).map .imm
  | cs => (parseNat cs).map .addr

/-! ## Instructions (R107, R108, R110, R112) -/

/-- `PUSH Rn` is `SUB R8,#4` then `STORE [R8],Rn` (R110). -/
def pushSequence (r : RegIx) : List Instr := [.subImm spIx 4, .store spIx r]

/-- `POP Rn` is `LOAD Rn,[R8]` then `ADD R8,#4` (R110). -/
def popSequence (r : RegIx) : List Instr := [.load r spIx, .addImm spIx 4]

/-- The mnemonics without an operand (R108). -/
def asmNoOperands : List (String × Instr) := [("NOP", .nop), ("HALT", .halt), ("CLC", .clc), ("STC", .stc)]

/-- The mnemonics with a REG and an IMM form (R107, R108). -/
def asmPairs : List (String × (RegIx → RegIx → Instr) × (RegIx → Word → Instr)) :=
  [("MOV", .movReg, .movImm), ("ADD", .addReg, .addImm), ("SUB", .subReg, .subImm), ("MUL", .mulReg, .mulImm),
   ("DIV", .divReg, .divImm), ("ADDC", .addcReg, .addcImm), ("SUBC", .subcReg, .subcImm), ("AND", .andReg, .andImm),
   ("OR", .orReg, .orImm), ("XOR", .xorReg, .xorImm), ("SHL", .shlReg, .shlImm), ("SHR", .shrReg, .shrImm),
   ("SAR", .sarReg, .sarImm), ("ROL", .rolReg, .rolImm), ("ROR", .rorReg, .rorImm), ("CMP", .cmpReg, .cmpImm)]

/-- The jumps (R108). -/
def asmJumps : List (String × (Half → Instr)) :=
  [("JMP", .jmp), ("JZ", .jz), ("JNZ", .jnz), ("JC", .jc), ("JNC", .jnc), ("JS", .js), ("JNS", .jns)]

/-- The entry of a mnemonic in a table. -/
def asmFind {α : Type} (name : List Char) : List (String × α) → Option α
  | [] => none
  | (k, v) :: rest => if k.toList = name then some v else asmFind name rest

/-- `imm = mask32(n)` for n from -32768 to 32767, else rejected (R108, R112). -/
def asmImm (n : Int) : Option Word := if -32768 ≤ n ∧ n ≤ 32767 then some (mask32 n) else none

/-- A jump address from 0 to 65535, else rejected (R112). -/
def asmAddr (n : Nat) : Option Half := if n ≤ 65535 then some (BitVec.ofNat 16 n) else none

/-- The instructions of one mnemonic with its operands; none where the shapes do not match R108. The REG form is chosen when the second
operand is a bare register, the IMM form when it starts with `#` (R107). -/
def asmInstr (name : List Char) (ops : List AsmOperand) : Option (List Instr) :=
  match ops with
  | [] => (asmFind name asmNoOperands).map ([·])
  | [.reg r] =>
    if name = "NOT".toList then some [.notReg r]
    else if name = "PUSH".toList then some (pushSequence r)
    else if name = "POP".toList then some (popSequence r)
    else none
  | [.addr n] =>
    match asmFind name asmJumps, asmAddr n with
    | some mk, some a => some [mk a]
    | _, _ => none
  | [.reg d, .reg s] => (asmFind name asmPairs).map (fun mk => [mk.1 d s])
  | [.reg d, .imm n] =>
    match asmFind name asmPairs, asmImm n with
    | some mk, some imm => some [mk.2 d imm]
    | _, _ => none
  | [.reg d, .mem b] => if name = "LOAD".toList then some [.load d b] else none
  | [.mem b, .reg s] => if name = "STORE".toList then some [.store b s] else none
  | _ => none

/-- Every operand of a line, or none where one does not parse. -/
def parseOperands : List (List Char) → Option (List AsmOperand)
  | [] => some []
  | t :: rest =>
    match parseOperand t, parseOperands rest with
    | some o, some os => some (o :: os)
    | _, _ => none

/-- The instructions of one line: none of an empty line or of a comment line, which starts with `;` (R105). That a line of separators only,
commas included, is an empty line, and that separators, commas included, may precede the `;` of a comment line, is a DESIGN CHOICE, safe
(notes/assumptions/12.md). -/
def asmLine (line : List Char) : Option (List Instr) :=
  match tokensFrom line [] with
  | [] => some []
  | name :: ops =>
    if name.head? = some ';' then some []
    else
      match parseOperands ops with
      | some os => asmInstr name os
      | none => none

/-- The instructions of a list of lines; none where a line is rejected (R112). -/
def asmLines : List (List Char) → Option (List Instr)
  | [] => some []
  | line :: rest =>
    match asmLine line, asmLines rest with
    | some is, some js => some (is ++ js)
    | _, _ => none

/-- The bytes of a list of instructions, instruction `k` at offset `4k` (R111); none where the instance has no such instruction. -/
def encodeProgram (c : Config) : List Instr → Option (List Byte)
  | [] => some []
  | i :: rest =>
    match encode c i, encodeProgram c rest with
    | some w, some bytes => some (bytesOfWord w ++ bytes)
    | _, _ => none

/-- Assemble a text into the bytes that `load_program` takes (R105 to R112). -/
def assemble (c : Config) (text : String) : Option (List Byte) :=
  match asmLines (linesFrom text.toList []) with
  | some is => encodeProgram c is
  | none => none

end Sys2Proof.Machine
end

