-- ==== Sys2Proof/Machine/HostOps.lean ====
section
/-! DEFINITION. The host interface (spec/70_reset_and_hazards.md R310 to R328): atomic operations, issued one at a time between steps. The
model takes them as one sequence (R328; notes/assumptions/13.md). -/

namespace Sys2Proof.Machine

/-! ## Construct and reset -/

/-- Construction, the power-on reset: the given parameters and memory contents, everything else as R38 says (R311). None where the
parameters are outside the constraints of R6. Bytes of `init` beyond `MEM_SIZE` are dropped, missing ones are 0x00 (notes/assumptions/3.md). -/
def construct (c : Config) (init : List Byte) : Option State :=
  if c.valid then
    some { State.reset with regs := resetRegs c, mem := Memory.setBytes [] 0 (init.take c.memSize), params := c }
  else none

/-- `reset()`, the warm reset: registers and flags cleared, SP to `STACK_BASE`, the engine state to 0, memory untouched (R312, R39). -/
def warmReset (s : State) : State :=
  { s with regs := resetRegs s.params, pc := 0, ir := 0, flags := Flags.clear, running := false, halted := false, cycleCount := 0, faulted := none }

/-! ## Loading and running -/

/-- `load_program(bytes, start_address)`: refused whole where it does not fit, else the bytes are copied one at a time and `pc` is set;
nothing else changes (R320). -/
def loadProgram (bytes : List Byte) (start : Nat) (s : State) : Except Fault State :=
  if s.params.memSize < start + bytes.length then .error .programTooLarge
  else .ok { s with mem := Memory.setBytes s.mem start bytes, pc := mask32 (Int.ofNat start) }

/-- The state after one step (R120). -/
def stepped (s : State) : State :=
  match step s with
  | .next t => t
  | _ => s

/-- The outcome of one step from `s` (R120). -/
def stepReport (s : State) : Report := report s (stepped s)

/-- The loop of `run`, at most `n` more steps (R323, decision D11). -/
def runLoop : Nat → State → State
  | 0, s => s
  | n + 1, s => if s.running && !s.halted then runLoop n (stepped s) else s

/-- `run(max_cycles = n)`: `running <- 1`, then the loop (R323, decision D10). The spec gives the cap no type; that it is a natural number is a
DESIGN CHOICE, safe (notes/assumptions/20.md). -/
def run (n : Nat) (s : State) : State := runLoop n { s with running := true }

/-- `run()` with no cap returns `t`: some number of steps ends the loop there. A run that never ends has no such `t` (R323;
notes/assumptions/9.md). -/
def RunReturns (s t : State) : Prop := ∃ n, run n s = t ∧ (t.running && !t.halted) = false

/-- How `run` ended (R323). -/
inductive RunEnd where
  | halted
  | fault (f : Fault)
  | capped
  deriving DecidableEq, Repr

/-- How the `run` that left `t` ended (R323). -/
def runEnd (t : State) : RunEnd :=
  if t.halted then .halted
  else if t.running then .capped
  else match t.faulted with
    | some f => .fault f
    | none => .capped

/-! ## Reading the state -/

/-- What `get_state()` returns (R325): no `ir` and no memory. -/
structure Snapshot where
  registers : Vector Word 9
  pc : Word
  sp : Word
  flags : Flags
  running : Bool
  halted : Bool
  cycleCount : Nat
  deriving DecidableEq, Repr

/-- `get_state()` (R325). -/
def getState (s : State) : Snapshot :=
  ⟨s.regs, s.pc, State.sp s, s.flags, s.running, s.halted, s.cycleCount⟩

/-! ## The diagnostic register port -/

/-- `get(index)`: 0 to 8, and 0x10 `pc`, 0x11 `ir`, 0x12 SP; any other index is InvalidRegister (R326, R22, R34). The spec gives the index
no type; that it is a natural number is a DESIGN CHOICE, safe (notes/assumptions/19.md). -/
def regGet (index : Nat) (s : State) : Except Fault Word :=
  if h : index < 9 then .ok (State.x s ⟨index, h⟩)
  else if index = 0x10 then .ok s.pc
  else if index = 0x11 then .ok s.ir
  else if index = 0x12 then .ok (State.sp s)
  else .error (.invalidRegister index)

/-- `set(index, value)`: the value is masked to 32 bits (R326, R23, R34). The index is a natural number: DESIGN CHOICE, safe
(notes/assumptions/19.md). -/
def regSet (index : Nat) (value : Int) (s : State) : Except Fault State :=
  if h : index < 9 then .ok (State.setX s ⟨index, h⟩ (mask32 value))
  else if index = 0x10 then .ok (State.setPc s (mask32 value))
  else if index = 0x11 then .ok { s with ir := mask32 value }
  else if index = 0x12 then .ok (State.setX s spIx (mask32 value))
  else .error (.invalidRegister index)

/-! ## The flag block's named access (notes/assumptions/18.md) -/

/-- `get(name)`: FlagError for a name that is not Z, S, C, O or P (R41). -/
def flagGet (name : String) (f : Flags) : Except Fault Bool :=
  if name = "Z" then .ok f.z
  else if name = "S" then .ok f.s
  else if name = "C" then .ok f.c
  else if name = "O" then .ok f.o
  else if name = "P" then .ok f.p
  else .error (.flagError name)

/-- `set(name, bit)`: FlagError for a name that is not Z, S, C, O or P (R41). -/
def flagSet (name : String) (bit : Bool) (f : Flags) : Except Fault Flags :=
  if name = "Z" then .ok { f with z := bit }
  else if name = "S" then .ok { f with s := bit }
  else if name = "C" then .ok { f with c := bit }
  else if name = "O" then .ok { f with o := bit }
  else if name = "P" then .ok { f with p := bit }
  else .error (.flagError name)

/-! ## The sequence of host operations -/

/-- The host's operations on a constructed core (R310; notes/assumptions/17.md). A register write masks its value to 32 bits (R326) and a
byte write stores `v[7:0]` of its value (R55, R327). A register index and the cap of `run` are
natural numbers: DESIGN CHOICE, safe (notes/assumptions/19.md, 20.md). -/
inductive HostOp where
  | reset
  | loadProgram (bytes : List Byte) (start : Nat)
  | step
  | run (maxCycles : Nat)
  | getState
  | regGet (index : Nat)
  | regSet (index : Nat) (value : Int)
  | readByte (addr : Nat)
  | writeByte (addr : Nat) (v : Int)
  | readWord (addr : Nat)
  | writeWord (addr : Nat) (v : Word)
  deriving DecidableEq, Repr

/-- What a host operation answers. -/
inductive Reply where
  | done
  | refused (f : Fault)
  | stepped (r : Report)
  | ran (e : RunEnd)
  | snapshot (g : Snapshot)
  | word (v : Word)
  | byte (v : Byte)
  deriving DecidableEq, Repr

/-- The state after an operation that writes, and its reply: a fault goes to the host and changes nothing, `running` included (R326, R327). -/
def answerWrite (s : State) : Except Fault State → State × Reply
  | .ok t => (t, .done)
  | .error f => (s, .refused f)

/-- The reply of an operation that reads a word; it changes nothing (R63, R326, R327). -/
def answerWord (s : State) : Except Fault Word → State × Reply
  | .ok v => (s, .word v)
  | .error f => (s, .refused f)

/-- The reply of an operation that reads a byte; it changes nothing (R63, R327). -/
def answerByte (s : State) : Except Fault Byte → State × Reply
  | .ok v => (s, .byte v)
  | .error f => (s, .refused f)

/-- One host operation (R310). -/
def perform (op : HostOp) (s : State) : State × Reply :=
  match op with
  | .reset => (warmReset s, .done)
  | .loadProgram bytes start => answerWrite s (loadProgram bytes start s)
  | .step => (stepped s, .stepped (stepReport s))
  | .run n => (run n s, .ran (runEnd (run n s)))
  | .getState => (s, .snapshot (getState s))
  | .regGet index => answerWord s (regGet index s)
  | .regSet index value => answerWrite s (regSet index value s)
  | .readByte addr => answerByte s (readByte addr s)
  | .writeByte addr v => answerWrite s (writeByte addr v s)
  | .readWord addr => answerWord s (readWord addr s)
  | .writeWord addr v => answerWrite s (writeWord addr v s)

/-- The host's operations as one sequence (R328). -/
def performAll : List HostOp → State → State
  | [], s => s
  | op :: rest, s => performAll rest (perform op s).1

end Sys2Proof.Machine
end

