-- ==== Sys2Proof/Safety.lean ====
section
/-! DEFINITION. What counts as a legal state and as a safe run, in the terms the statements use. -/

namespace Sys2Proof.Safety

open Sys2Proof.Machine

/-- A legal state: the parameters meet their constraints (R6), the memory has its canonical form, and no byte beyond `MEM_SIZE` is
listed (R35, R50). -/
def Legal (s : State) : Prop :=
  s.params.valid = true ∧ Memory.wf s.mem = true ∧ Memory.inside s.mem s.params.memSize = true

/-- A halted core is not running (R30, R31). The host's `run` on a halted core is the one operation that breaks it
(notes/assumptions/8.md), so it is kept apart from `Legal`. -/
def HaltedStopped (s : State) : Prop := s.halted = true → s.running = false

/-- The next fetch succeeds: `pc` is in range and a multiple of 4 (R26, R122). -/
def Fetchable (s : State) : Prop := s.pc.toNat + 4 ≤ s.params.memSize ∧ s.pc.toNat % 4 = 0

/-- The step from `s` reports no fault (R120). -/
def StepsClean (s : State) : Prop := ∀ f, stepReport s ≠ .fault f

/-- A safe run of `n` steps: none of them faults (R129). -/
def SafeFor : Nat → State → Prop
  | 0, _ => True
  | n + 1, s => StepsClean s ∧ SafeFor n (stepped s)

end Sys2Proof.Safety
end

