-- ==== Sys2Proof/Certificates/Slice0/Obligations.lean ====
section
/-! DEFINITION. The statements for the provers, and the few functions they are written with. -/

namespace Sys2Proof.Claims

open Sys2Proof.Machine Sys2Proof.Safety

/-- The low byte has an even number of 1 bits. -/
def evenOnes (r : Word) : Bool :=
  !(r.getLsbD 0 ^^ r.getLsbD 1 ^^ r.getLsbD 2 ^^ r.getLsbD 3 ^^ r.getLsbD 4 ^^ r.getLsbD 5 ^^ r.getLsbD 6 ^^ r.getLsbD 7)

/-- The flags with Z, S and P from a result and the given C and O. -/
def newFlags (r : Word) (c o : Bool) : Flags := ⟨decide (r = 0#32), r.msb, c, o, evenOnes r⟩

/-- The flags of an addition. -/
def addFlags (a b : Word) : Flags :=
  newFlags (a + b) (decide (2 ^ 32 ≤ a.toNat + b.toNat)) (decide (a.msb = b.msb ∧ (a + b).msb ≠ a.msb))

/-- The flags of a subtraction or a comparison. -/
def subFlags (a b : Word) : Flags :=
  newFlags (a - b) (decide (a.toNat < b.toNat)) (decide (a.msb ≠ b.msb ∧ (a - b).msb ≠ a.msb))

/-- The flags of a multiplication. -/
def mulFlags (a b : Word) : Flags := newFlags (a * b) (decide (2 ^ 32 ≤ a.toNat * b.toNat)) false

/-- The flags of an addition with carry in: O is kept. -/
def addcFlags (a b : Word) (f : Flags) : Flags :=
  newFlags (a + b + BitVec.ofNat 32 f.c.toNat) (decide (2 ^ 32 ≤ a.toNat + b.toNat + f.c.toNat)) f.o

/-- The flags of a subtraction with borrow in: O is kept. -/
def subcFlags (a b : Word) (f : Flags) : Flags :=
  newFlags (a - b - BitVec.ofNat 32 f.c.toNat) (decide (a.toNat < b.toNat + f.c.toNat)) f.o

/-- The flags of a shift: a count of 0 keeps C and O. -/
def shiftFlags (r : Word) (count : Nat) (out : Bool) (f : Flags) : Flags :=
  if count = 0 then newFlags r f.c f.o else newFlags r out false

/-- The state counted one instruction on, nothing else changed but the model's own mark. -/
def counted (s : State) : State := { s with cycleCount := s.cycleCount + 1, faulted := none }

/-- The state counted on, with one register and the flags written. -/
def wrote (s : State) (dest : RegIx) (v : Word) (f : Flags) : State :=
  { s with regs := s.regs.set dest.val v, flags := f, cycleCount := s.cycleCount + 1, faulted := none }

/-- The state after a fault is taken: only `running` and the model's own mark change. -/
def faultTaken (f : Fault) (s : State) : State := { s with running := false, faulted := some f }

/-- The state counted on, with `pc` at the address where the jump is taken. -/
def jumped (s : State) (addr : Half) (taken : Bool) : State :=
  { counted s with pc := if taken = true then BitVec.ofNat 32 addr.toNat else s.pc }

/-- After a logical shift left by `c` places. -/
def shiftedLeft (s : State) (dest : RegIx) (c : Nat) : State :=
  wrote s dest (BitVec.ofNat 32 ((State.x s dest).toNat * 2 ^ c))
    (shiftFlags (BitVec.ofNat 32 ((State.x s dest).toNat * 2 ^ c)) c ((State.x s dest).getLsbD (32 - c)) s.flags)

/-- After a logical shift right by `c` places. -/
def shiftedRight (s : State) (dest : RegIx) (c : Nat) : State :=
  wrote s dest (BitVec.ofNat 32 ((State.x s dest).toNat / 2 ^ c))
    (shiftFlags (BitVec.ofNat 32 ((State.x s dest).toNat / 2 ^ c)) c ((State.x s dest).getLsbD (c - 1)) s.flags)

/-- After an arithmetic shift right by `c` places: the floor of the signed quotient. -/
def shiftedArith (s : State) (dest : RegIx) (c : Nat) : State :=
  wrote s dest (BitVec.ofInt 32 ((State.x s dest).toInt / 2 ^ c))
    (shiftFlags (BitVec.ofInt 32 ((State.x s dest).toInt / 2 ^ c)) c ((State.x s dest).getLsbD (c - 1)) s.flags)

/-- After a rotate left by `c` places; nothing but the count where `c` is 0. -/
def rotatedLeft (s : State) (dest : RegIx) (c : Nat) : State :=
  if c = 0 then counted s
  else wrote s dest ((State.x s dest).rotateLeft c)
    (newFlags ((State.x s dest).rotateLeft c) (((State.x s dest).rotateLeft c).getLsbD 0) false)

/-- After a rotate right by `c` places; nothing but the count where `c` is 0. -/
def rotatedRight (s : State) (dest : RegIx) (c : Nat) : State :=
  if c = 0 then counted s
  else wrote s dest ((State.x s dest).rotateRight c)
    (newFlags ((State.x s dest).rotateRight c) (((State.x s dest).rotateRight c).getLsbD 31) false)

/-- The number four bytes make, the lowest address least significant. -/
def wordAt (m : Memory) (a : Nat) : Nat :=
  (Memory.byte m a).toNat + 2 ^ 8 * (Memory.byte m (a + 1)).toNat + 2 ^ 16 * (Memory.byte m (a + 2)).toNat +
    2 ^ 24 * (Memory.byte m (a + 3)).toNat

/-- Two states agree on everything a step reads. -/
def AgreeForStep (s s' : State) : Prop :=
  s.regs = s'.regs ∧ s.pc = s'.pc ∧ s.flags.z = s'.flags.z ∧ s.flags.s = s'.flags.s ∧ s.flags.c = s'.flags.c ∧
  s.halted = s'.halted ∧ s.mem = s'.mem ∧ s.params = s'.params

/-- Instructions executed one after another. -/
def execAll : List Instr → State → Option State
  | [], s => some s
  | i :: rest, s =>
    match exec i s with
    | .next t => execAll rest t
    | _ => none

/-- The state after that many steps, made one after another as host operations. -/
def afterSteps (k : Nat) (s : State) : State := performAll (List.replicate k .step) s

/-- The next step runs this instruction: the core is not halted, the fetch succeeds and the word at `pc` decodes to it. -/
def Executes (i : Instr) (s : State) : Prop :=
  s.halted = false ∧ Fetchable s ∧ decode s.params (Memory.word s.mem s.pc.toNat) = .ok i

/-- That many instructions decoded from bytes, one after another. -/
def decodeMany (c : Config) : Nat → List Byte → Option (List Instr)
  | 0, _ => some []
  | n + 1, bytes =>
    match decodeBytes c bytes with
    | some (.ok (i, rest)) => (decodeMany c n rest).map (i :: ·)
    | _ => none

end Sys2Proof.Claims

open Sys2Proof Sys2Proof.Machine Sys2Proof.Safety Sys2Proof.Claims

/-- Z, S and P of a result; C and O are kept. The polarity of P is the spec's own choice (decision D19), so the basis is derived. -/
def Obligations.BasicUpdateSetsZeroSignParity : Prop :=
  ∀ (r : Word) (f : Flags), basicUpdate r f = ⟨decide (r = 0#32), r.msb, f.c, f.o, evenOnes r⟩

/-- Each routine is `basic_update` of the result with C and O as its rule says (R141 to R149); CLC and STC touch C only (R165, R166). The range of the count in the two clauses on `shiftLeftUpdate` is that of R145. -/
def Obligations.FlagRoutinesFollowTheirRules : Prop :=
  ∀ (a b r : Word) (carry : Bool) (count full : Nat) (f : Flags),
    addUpdate a b r f = { basicUpdate r f with
      c := decide (2 ^ 32 ≤ a.toNat + b.toNat), o := decide (a.msb = b.msb ∧ r.msb ≠ a.msb) } ∧
    subUpdate a b r f = { basicUpdate r f with
      c := decide (a.toNat < b.toNat), o := decide (a.msb ≠ b.msb ∧ r.msb ≠ a.msb) } ∧
    aluCompare a b f = subUpdate a b (a - b) f ∧
    logicalUpdate r f = { basicUpdate r f with c := false, o := false } ∧
    shiftUpdate r carry f = { basicUpdate r f with c := carry, o := false } ∧
    shiftLeftUpdate a 0 r f = basicUpdate r f ∧
    (0 < count → count ≤ 31 → shiftLeftUpdate a count r f = shiftUpdate r (a.getLsbD (32 - count)) f) ∧
    shiftRightUpdate a 0 r f = basicUpdate r f ∧
    (0 < count → shiftRightUpdate a count r f = shiftUpdate r (a.getLsbD (count - 1)) f) ∧
    rotateUpdate r carry f = shiftUpdate r carry f ∧
    multiplicationUpdate r full f = { basicUpdate r f with c := decide (2 ^ 32 ≤ full), o := false } ∧
    divisionUpdate r f = { basicUpdate r f with c := false, o := false } ∧
    clearCarry f = { f with c := false } ∧
    setCarry f = { f with c := true }

/-- The five properties of R172. -/
def Obligations.AluTestableLawsHold : Prop :=
  ∀ (a b : Word) (f g : Flags),
    ((aluAdd a b f).1.toNat = (a.toNat + b.toNat) % 2 ^ 32 ∧
      ((aluAdd a b f).2.c = true ↔ 2 ^ 32 - 1 < a.toNat + b.toNat) ∧
      ((aluAdd a b f).2.o = true ↔ a.msb = b.msb ∧ (aluAdd a b f).1.msb ≠ a.msb)) ∧
    (((aluSub a b f).1.toNat : Int) = ((a.toNat : Int) - (b.toNat : Int)) % 2 ^ 32 ∧
      ((aluSub a b f).2.c = true ↔ a.toNat < b.toNat)) ∧
    aluDiv a 0#32 f = none ∧
    ((aluNot (aluNot a f).1 g).1 = a ∧
      (∀ r ∈ [aluAnd a b f, aluOr a b f, aluXor a b f, aluNot a f], r.2.c = false ∧ r.2.o = false)) ∧
    (∀ k : Word, k.toNat < 32 → (aluRor (aluRol a k f).1 k g).1 = a)

/-- The overflow column of the table in 41_alu.md section 3: O reports signed overflow. -/
def Obligations.OverflowIsSignedOverflow : Prop :=
  ∀ (a b : Word) (f : Flags),
    ((aluAdd a b f).2.o = true ↔ a.toInt + b.toInt ≠ (aluAdd a b f).1.toInt) ∧
    ((aluSub a b f).2.o = true ↔ a.toInt - b.toInt ≠ (aluSub a b f).1.toInt)

/-- How the flags are read after a comparison; the spec marks the rule as derived. -/
def Obligations.CompareFlagsDecideOrder : Prop :=
  ∀ (a b : Word) (f : Flags),
    ((aluCompare a b f).z = true ↔ a = b) ∧
    ((aluCompare a b f).c = true ↔ a.toNat < b.toNat) ∧
    ((aluCompare a b f).c = false ↔ b.toNat ≤ a.toNat) ∧
    ((aluCompare a b f).s ≠ (aluCompare a b f).o ↔ a.toInt < b.toInt) ∧
    ((aluCompare a b f).s = (aluCompare a b f).o ↔ b.toInt ≤ a.toInt)

/-- The carry chain of the glossary: C passes between successive operations. That O is kept by the second operation is the spec's derived reading. -/
def Obligations.CarryChainComputesDoubleWords : Prop :=
  ∀ (lo hi lo' hi' : Word) (f : Flags),
    (let p := aluAdd lo lo' f
     let q := aluAddc hi hi' p.2
     q.1.toNat * 2 ^ 32 + p.1.toNat
         = (hi.toNat * 2 ^ 32 + lo.toNat + (hi'.toNat * 2 ^ 32 + lo'.toNat)) % 2 ^ 64 ∧
       (q.2.c = true ↔ 2 ^ 64 ≤ hi.toNat * 2 ^ 32 + lo.toNat + (hi'.toNat * 2 ^ 32 + lo'.toNat)) ∧
       q.2.o = p.2.o) ∧
    (let p := aluSub lo lo' f
     let q := aluSubc hi hi' p.2
     ((q.1.toNat * 2 ^ 32 + p.1.toNat : Nat) : Int)
         = (((hi.toNat * 2 ^ 32 + lo.toNat : Nat) : Int) - ((hi'.toNat * 2 ^ 32 + lo'.toNat : Nat) : Int)) % 2 ^ 64 ∧
       (q.2.c = true ↔ hi.toNat * 2 ^ 32 + lo.toNat < hi'.toNat * 2 ^ 32 + lo'.toNat) ∧
       q.2.o = p.2.o)

/-- NOP and HALT in every state, with the whole frame. The model's own field `faulted` becomes none (notes/assumptions/5.md). -/
def Obligations.NopAndHaltComplete : Prop :=
  ∀ s : State,
    exec .nop s = .next (counted s) ∧
    exec .halt s = .next { counted s with halted := true, running := false }

/-- CLC and STC in every state, with the whole frame; that STC exists as an instruction is decision D2. -/
def Obligations.CarryInstructionsComplete : Prop :=
  ∀ s : State,
    exec .clc s = .next { counted s with flags := { s.flags with c := false } } ∧
    exec .stc s = .next { counted s with flags := { s.flags with c := true } }

/-- The two moves for every register pair and every immediate, with the whole frame. -/
def Obligations.MovesComplete : Prop :=
  ∀ (s : State) (dest src : RegIx) (imm : Word),
    exec (.movReg dest src) s = .next (wrote s dest (State.x s src) s.flags) ∧
    exec (.movImm dest imm) s = .next (wrote s dest imm s.flags)

/-- LOAD on an aligned address in range, with the whole frame. The value is computed from the four bytes. -/
def Obligations.LoadCompletes : Prop :=
  ∀ (s : State) (dest base : RegIx),
    indirectAddress base s + 4 ≤ s.params.memSize → indirectAddress base s % 4 = 0 →
    exec (.load dest base) s
      = .next (wrote s dest (BitVec.ofNat 32 (wordAt s.mem (indirectAddress base s))) s.flags)

/-- STORE on an aligned address in range: the stored bytes, the frame of memory through the read of one byte, and the rest of the state. The stored address is `indirectAddress base s`, as in the meaning. The premise on the canonical form is kept by every step (StepKeepsLegalState). -/
def Obligations.StoreCompletes : Prop :=
  ∀ (s : State) (base src : RegIx),
    Memory.wf s.mem = true →
    indirectAddress base s + 4 ≤ s.params.memSize → indirectAddress base s % 4 = 0 →
    ∃ t : State, exec (.store base src) s = .next t ∧
      t = { counted s with mem := t.mem } ∧
      (∀ k, k < 4 → Memory.byte t.mem (indirectAddress base s + k)
        = BitVec.ofNat 8 ((State.x s src).toNat / 2 ^ (8 * k))) ∧
      (∀ a, a < indirectAddress base s ∨ indirectAddress base s + 4 ≤ a → Memory.byte t.mem a = Memory.byte s.mem a)

/-- ADD, SUB and MUL for every register pair and immediate, the destination being the source included. The polarity of P is decision D19; that an immediate is treated alike by every operation is decision D31. -/
def Obligations.AddSubMulComplete : Prop :=
  ∀ (s : State) (dest src : RegIx) (imm : Word),
    exec (.addReg dest src) s = .next (wrote s dest (State.x s dest + State.x s src) (addFlags (State.x s dest) (State.x s src))) ∧
    exec (.addImm dest imm) s = .next (wrote s dest (State.x s dest + imm) (addFlags (State.x s dest) imm)) ∧
    exec (.subReg dest src) s = .next (wrote s dest (State.x s dest - State.x s src) (subFlags (State.x s dest) (State.x s src))) ∧
    exec (.subImm dest imm) s = .next (wrote s dest (State.x s dest - imm) (subFlags (State.x s dest) imm)) ∧
    exec (.mulReg dest src) s = .next (wrote s dest (State.x s dest * State.x s src) (mulFlags (State.x s dest) (State.x s src))) ∧
    exec (.mulImm dest imm) s = .next (wrote s dest (State.x s dest * imm) (mulFlags (State.x s dest) imm))

/-- The two DIV forms where the divisor is not 0, with the whole frame. The polarity of P is decision D19. -/
def Obligations.DivCompletes : Prop :=
  ∀ (s : State) (dest src : RegIx) (imm : Word),
    (State.x s src ≠ 0#32 → exec (.divReg dest src) s
      = .next (wrote s dest (State.x s dest / State.x s src) (newFlags (State.x s dest / State.x s src) false false))) ∧
    (imm ≠ 0#32 → exec (.divImm dest imm) s
      = .next (wrote s dest (State.x s dest / imm) (newFlags (State.x s dest / imm) false false)))

/-- The Execute faults of DIV, LOAD and STORE: what they report and that nothing else changes. The fault as a next state is the model's choice (notes/assumptions/5.md); range before alignment is decision D15, flags untouched by a division by zero decision D32. -/
def Obligations.ExecuteFaultsAreTaken : Prop :=
  ∀ (s : State) (dest src base : RegIx),
    (State.x s src = 0#32 → exec (.divReg dest src) s = .next (faultTaken .divisionByZero s)) ∧
    exec (.divImm dest 0#32) s = .next (faultTaken .divisionByZero s) ∧
    (s.params.memSize < indirectAddress base s + 4 →
      exec (.load dest base) s = .next (faultTaken (.outOfRange (indirectAddress base s)) s) ∧
      exec (.store base src) s = .next (faultTaken (.outOfRange (indirectAddress base s)) s))

/-- ADDC and SUBC for every register pair and immediate, with the whole frame. That ADDC_IMM and SUBC exist is decision D2; that O is kept is the spec's derived reading; the polarity of P is decision D19. -/
def Obligations.CarryChainInstructionsComplete : Prop :=
  ∀ (s : State) (dest src : RegIx) (imm : Word),
    exec (.addcReg dest src) s = .next (wrote s dest (State.x s dest + State.x s src + BitVec.ofNat 32 s.flags.c.toNat)
      (addcFlags (State.x s dest) (State.x s src) s.flags)) ∧
    exec (.addcImm dest imm) s = .next (wrote s dest (State.x s dest + imm + BitVec.ofNat 32 s.flags.c.toNat)
      (addcFlags (State.x s dest) imm s.flags)) ∧
    exec (.subcReg dest src) s = .next (wrote s dest (State.x s dest - State.x s src - BitVec.ofNat 32 s.flags.c.toNat)
      (subcFlags (State.x s dest) (State.x s src) s.flags)) ∧
    exec (.subcImm dest imm) s = .next (wrote s dest (State.x s dest - imm - BitVec.ofNat 32 s.flags.c.toNat)
      (subcFlags (State.x s dest) imm s.flags))

/-- The seven logic instructions for every operand, with the whole frame. The polarity of P is decision D19. -/
def Obligations.LogicInstructionsComplete : Prop :=
  ∀ (s : State) (dest src : RegIx) (imm : Word),
    exec (.andReg dest src) s = .next (wrote s dest (State.x s dest &&& State.x s src) (newFlags (State.x s dest &&& State.x s src) false false)) ∧
    exec (.andImm dest imm) s = .next (wrote s dest (State.x s dest &&& imm) (newFlags (State.x s dest &&& imm) false false)) ∧
    exec (.orReg dest src) s = .next (wrote s dest (State.x s dest ||| State.x s src) (newFlags (State.x s dest ||| State.x s src) false false)) ∧
    exec (.orImm dest imm) s = .next (wrote s dest (State.x s dest ||| imm) (newFlags (State.x s dest ||| imm) false false)) ∧
    exec (.xorReg dest src) s = .next (wrote s dest (State.x s dest ^^^ State.x s src) (newFlags (State.x s dest ^^^ State.x s src) false false)) ∧
    exec (.xorImm dest imm) s = .next (wrote s dest (State.x s dest ^^^ imm) (newFlags (State.x s dest ^^^ imm) false false)) ∧
    exec (.notReg dest) s = .next (wrote s dest (~~~State.x s dest) (newFlags (~~~State.x s dest) false false))

/-- The six shifts for every operand, with the whole frame. The masked count in the flag routine is decision D18, SAR's mask decision D16, the polarity of P decision D19. -/
def Obligations.ShiftInstructionsComplete : Prop :=
  ∀ (s : State) (dest src : RegIx) (imm : Word),
    exec (.shlReg dest src) s = .next (shiftedLeft s dest ((State.x s src).toNat % 32)) ∧
    exec (.shlImm dest imm) s = .next (shiftedLeft s dest (imm.toNat % 32)) ∧
    exec (.shrReg dest src) s = .next (shiftedRight s dest ((State.x s src).toNat % 32)) ∧
    exec (.shrImm dest imm) s = .next (shiftedRight s dest (imm.toNat % 32)) ∧
    exec (.sarReg dest src) s = .next (shiftedArith s dest
      (if s.params.sarMasksCount = true then (State.x s src).toNat % 32 else (State.x s src).toNat)) ∧
    exec (.sarImm dest imm) s = .next (shiftedArith s dest
      (if s.params.sarMasksCount = true then imm.toNat % 32 else imm.toNat))

/-- The four rotates for every operand, with the whole frame. That they are instructions is decision D2, the bit in C decision D17, the polarity of P decision D19. -/
def Obligations.RotateInstructionsComplete : Prop :=
  ∀ (s : State) (dest src : RegIx) (imm : Word),
    exec (.rolReg dest src) s = .next (rotatedLeft s dest ((State.x s src).toNat % 32)) ∧
    exec (.rolImm dest imm) s = .next (rotatedLeft s dest (imm.toNat % 32)) ∧
    exec (.rorReg dest src) s = .next (rotatedRight s dest ((State.x s src).toNat % 32)) ∧
    exec (.rorImm dest imm) s = .next (rotatedRight s dest (imm.toNat % 32))

/-- The two compares for every operand, with the whole frame. The polarity of P is decision D19. -/
def Obligations.ComparesComplete : Prop :=
  ∀ (s : State) (dest src : RegIx) (imm : Word),
    exec (.cmpReg dest src) s = .next { counted s with flags := subFlags (State.x s dest) (State.x s src) } ∧
    exec (.cmpImm dest imm) s = .next { counted s with flags := subFlags (State.x s dest) imm }

/-- The seven jumps in every state and for every address, misaligned and out of range ones included (decision D30), with the whole frame. -/
def Obligations.JumpsComplete : Prop :=
  ∀ (s : State) (addr : Half),
    exec (.jmp addr) s = .next (jumped s addr true) ∧
    exec (.jz addr) s = .next (jumped s addr s.flags.z) ∧
    exec (.jnz addr) s = .next (jumped s addr (!s.flags.z)) ∧
    exec (.jc addr) s = .next (jumped s addr s.flags.c) ∧
    exec (.jnc addr) s = .next (jumped s addr (!s.flags.c)) ∧
    exec (.js addr) s = .next (jumped s addr s.flags.s) ∧
    exec (.jns addr) s = .next (jumped s addr (!s.flags.s))

/-- The step and `exec`: what the step adds is `ir` and the advance of `pc`; when `ir` is written is decision D12. -/
def Obligations.StepRunsDecodedInstruction : Prop :=
  ∀ (s : State) (i : Instr), s.halted = false → Fetchable s →
    decode s.params (Memory.word s.mem s.pc.toNat) = .ok i →
    step s = exec i { s with ir := Memory.word s.mem s.pc.toNat, pc := s.pc + 4#32 }

/-- The idle step: no field changes and nothing is raised. -/
def Obligations.HaltedStepIsIdle : Prop :=
  ∀ s : State, s.halted = true → step s = .next s ∧ stepReport s = .idle

/-- The two faults before Execute. The state they leave is decision D29, the moment of the `ir` write D12, the fault as a next state notes/assumptions/5.md. -/
def Obligations.FetchAndDecodeFaultsAreTaken : Prop :=
  ∀ s : State, s.halted = false →
    (¬ Fetchable s → step s = .next (faultTaken (.invalidInstruction s.pc.toNat) s)) ∧
    (Fetchable s → ∀ op : Byte, decode s.params (Memory.word s.mem s.pc.toNat) = .error (.unknownOpcode op) →
      step s = .next (faultTaken (.unknownOpcode op) { s with ir := Memory.word s.mem s.pc.toNat, pc := s.pc + 4#32 })) ∧
    (Fetchable s → ∀ r : Byte, decode s.params (Memory.word s.mem s.pc.toNat) = .error (.invalidRegister r) →
      step s = .next (faultTaken (.invalidRegister r.toNat) { s with ir := Memory.word s.mem s.pc.toNat, pc := s.pc + 4#32 }))

/-- The order of the checks before Execute. That `reg1` is reported where both fields are bad is decision D9. -/
def Obligations.FaultsAreReportedInOrder : Prop :=
  ∀ s : State, s.halted = false →
    (¬ Fetchable s → stepReport s = .fault (.invalidInstruction s.pc.toNat)) ∧
    (Fetchable s →
      (s.params.lookup (opcodeField (Memory.word s.mem s.pc.toNat)) = none →
        stepReport s = .fault (.unknownOpcode (opcodeField (Memory.word s.mem s.pc.toNat)))) ∧
      (∀ op : Opcode, s.params.lookup (opcodeField (Memory.word s.mem s.pc.toNat)) = some op →
        (op.shape ≠ .noOperands → op.shape ≠ .jump → 8 < (reg1Field (Memory.word s.mem s.pc.toNat)).toNat →
          stepReport s = .fault (.invalidRegister (reg1Field (Memory.word s.mem s.pc.toNat)).toNat)) ∧
        ((op.shape = .regReg ∨ op.shape = .load ∨ op.shape = .store) →
          (reg1Field (Memory.word s.mem s.pc.toNat)).toNat ≤ 8 → 8 < (reg2Field (Memory.word s.mem s.pc.toNat)).toNat →
          stepReport s = .fault (.invalidRegister (reg2Field (Memory.word s.mem s.pc.toNat)).toNat))))

/-- No step and no instruction of the model ends in a Lean-level fault or refusal. The model's choice: notes/assumptions/5.md. -/
def Obligations.StepAlwaysAnswersNext : Prop :=
  ∀ s : State, (∃ t, step s = .next t) ∧ ∀ i : Instr, ∃ t, exec i s = .next t

/-- The table of the post-fault state. It is the spec's own reading (decision D29). -/
def Obligations.FaultingStepWritesNothing : Prop :=
  ∀ (s t : State) (f : Fault), s.halted = false → step s = .next t → report s t = .fault f →
    t.regs = s.regs ∧ t.flags = s.flags ∧ t.mem = s.mem ∧ t.cycleCount = s.cycleCount ∧ t.halted = false ∧
    t.params = s.params ∧ t.running = false ∧
    ((¬ Fetchable s ∧ t.pc = s.pc ∧ t.ir = s.ir) ∨
     (Fetchable s ∧ t.pc = s.pc + 4#32 ∧ t.ir = Memory.word s.mem s.pc.toNat))

/-- The count of a step by its report (R125). -/
def Obligations.CycleCountCountsExecutedSteps : Prop :=
  ∀ s t : State, step s = .next t →
    (report s t = .executed → t.cycleCount = s.cycleCount + 1) ∧
    (report s t = .idle → t.cycleCount = s.cycleCount) ∧
    (∀ f, report s t = .fault f → t.cycleCount = s.cycleCount)

/-- The counter over a safe run. -/
def Obligations.CleanRunCountsEveryStep : Prop :=
  ∀ (n : Nat) (s : State), SafeFor n s → (performAll (List.replicate n .step) s).halted = false →
    (performAll (List.replicate n .step) s).cycleCount = s.cycleCount + n

/-- The life of `halted` (R31). -/
def Obligations.HaltedIsSetOnlyByHalt : Prop :=
  (∀ (c : Config) (init : List Byte) (s : State), construct c init = some s → s.halted = false) ∧
  (∀ s : State, (warmReset s).halted = false) ∧
  (∀ s t : State, s.halted = false → step s = .next t → t.halted = true →
    report s t = .executed ∧ Fetchable s ∧ decode s.params (Memory.word s.mem s.pc.toNat) = .ok .halt) ∧
  (∀ s : State, s.halted = true → step s = .next s) ∧
  (∀ (op : HostOp) (s : State), op ≠ .reset → s.halted = true → (perform op s).1.halted = true) ∧
  (∀ (op : HostOp) (s : State), op ≠ .reset → op ≠ .step → (∀ n, op ≠ .run n) → (perform op s).1.halted = s.halted)

/-- The invariant `HaltedStopped` is kept by every step; at reset it holds by ResetStateIsLegal. -/
def Obligations.HaltedCoreStaysStopped : Prop :=
  ∀ s t : State, HaltedStopped s → step s = .next t → HaltedStopped t

/-- The invariant `Legal`, over every state and every instruction. The canonical form is the model's own (notes/assumptions/3.md). -/
def Obligations.StepKeepsLegalState : Prop :=
  ∀ s t : State, Legal s → step s = .next t → Legal t ∧ t.params = s.params

/-- The invariant `Legal` along every sequence of host operations, and its base. -/
def Obligations.HostOperationsKeepLegalState : Prop :=
  (∀ (c : Config) (init : List Byte) (s : State), construct c init = some s → Legal s) ∧
  (∀ (ops : List HostOp) (s : State), Legal s → Legal (performAll ops s) ∧ (performAll ops s).params = s.params)

/-- The base of the two invariants at `State.reset`, whose parameters are the defaults (notes/assumptions/2.md). -/
def Obligations.ResetStateIsLegal : Prop :=
  Legal State.reset ∧ HaltedStopped State.reset

/-- The register frame of the machine, from the table of register writers. -/
def Obligations.StepWritesOnlyTheDestination : Prop :=
  ∀ (s t : State) (r : RegIx), step s = .next t → State.x t r ≠ State.x s r →
    ∃ i : Instr, Fetchable s ∧ decode s.params (Memory.word s.mem s.pc.toNat) = .ok i ∧ i.record.dest = some r ∧
      i.opcode.shape ≠ .store ∧ i.opcode ≠ .cmpReg ∧ i.opcode ≠ .cmpImm

/-- The memory frame of the machine, through the read of one byte. The address is `indirectAddress` of the state before. -/
def Obligations.OnlyStoreChangesMemory : Prop :=
  ∀ s t : State, step s = .next t →
    (∀ a, Memory.byte t.mem a = Memory.byte s.mem a) ∨
    (∃ base src : RegIx, decode s.params (Memory.word s.mem s.pc.toNat) = .ok (.store base src) ∧
      ∀ a, a < indirectAddress base s ∨ indirectAddress base s + 4 ≤ a → Memory.byte t.mem a = Memory.byte s.mem a)

/-- Who writes `pc` and `ir` in a step. When `ir` is written is decision D12. -/
def Obligations.PcAdvancesByFourOrJumps : Prop :=
  ∀ s t : State, s.halted = false → Fetchable s → step s = .next t →
    t.ir = Memory.word s.mem s.pc.toNat ∧
    (t.pc = s.pc + 4#32 ∨
     ∃ (i : Instr) (addr : Half), decode s.params (Memory.word s.mem s.pc.toNat) = .ok i ∧
       i.record.address = some addr ∧ t.pc.toNat = addr.toNat)

/-- What the next state depends on: not `ir`, `running`, `cycle_count`, O, P or `faulted`. -/
def Obligations.StepReadsNoEngineStateNorOverflowNorParity : Prop :=
  ∀ s s' t : State, AgreeForStep s s' → step s = .next t →
    ∃ t' : State, step s' = .next t' ∧ AgreeForStep t t' ∧ report s' t' = report s t

/-- The coverage property of the six conditional jumps, at the level of a step (R263). -/
def Obligations.ConditionalJumpsFollowTheirFlag : Prop :=
  ∀ (s : State) (addr : Half) (i : Instr) (met : Bool), s.halted = false → Fetchable s →
    (i, met) ∈ [(Instr.jz addr, s.flags.z), (Instr.jnz addr, !s.flags.z), (Instr.jc addr, s.flags.c),
      (Instr.jnc addr, !s.flags.c), (Instr.js addr, s.flags.s), (Instr.jns addr, !s.flags.s)] →
    decode s.params (Memory.word s.mem s.pc.toNat) = .ok i →
    ∃ t : State, step s = .next t ∧ (met = true → t.pc = BitVec.ofNat 32 addr.toNat) ∧ (met = false → t.pc = s.pc + 4#32)

/-- The two kinds that belong to the host's calls (R279). -/
def Obligations.StepRaisesNoHostFault : Prop :=
  (∀ s t : State, step s = .next t → report s t ≠ .fault .programTooLarge ∧ ∀ name, report s t ≠ .fault (.flagError name)) ∧
  (∀ (bytes : List Byte) (start : Nat) (s : State), s.params.memSize < start + bytes.length →
    perform (.loadProgram bytes start) s = (s, .refused .programTooLarge)) ∧
  (∀ (name : String) (bit : Bool) (f : Flags), name ∉ ["Z", "S", "C", "O", "P"] →
    flagGet name f = .error (.flagError name) ∧ flagSet name bit f = .error (.flagError name))

/-- The round-trip law (R59). The premise on the canonical form holds in every legal state (HostOperationsKeepLegalState). -/
def Obligations.WordWriteReadsBack : Prop :=
  ∀ (s : State) (a : Nat) (v : Word), Memory.wf s.mem = true → a + 4 ≤ s.params.memSize → a % 4 = 0 →
    ∃ t : State, writeWord a v s = .ok t ∧ readWord a t = .ok v

/-- The alignment rule (R58), for LOAD, STORE, the word accessors, the fetch and the byte accessors. The fault as a next state is the model's choice (notes/assumptions/5.md), so the basis is derived; the values a byte write takes are notes/assumptions/17.md. -/
def Obligations.MisalignedWordAccessFaults : Prop :=
  ∀ s : State,
    (∀ dest base src : RegIx, indirectAddress base s + 4 ≤ s.params.memSize → indirectAddress base s % 4 ≠ 0 →
      exec (.load dest base) s = .next (faultTaken (.misaligned (indirectAddress base s)) s) ∧
      exec (.store base src) s = .next (faultTaken (.misaligned (indirectAddress base s)) s)) ∧
    (∀ (a : Nat) (v : Word), a + 4 ≤ s.params.memSize → a % 4 ≠ 0 →
      readWord a s = .error (.misaligned a) ∧ perform (.writeWord a v) s = (s, .refused (.misaligned a))) ∧
    (s.halted = false → s.pc.toNat + 4 ≤ s.params.memSize → s.pc.toNat % 4 ≠ 0 →
      step s = .next (faultTaken (.invalidInstruction s.pc.toNat) s)) ∧
    (∀ (a : Nat) (v : Int), a < s.params.memSize → (∃ b, readByte a s = .ok b) ∧ ∃ t, writeByte a v s = .ok t)

/-- The byte read and the byte write (R54, R55), as accessors and at the host's memory port (R327). The port is decision D23 and a negative value in two's complement is the model's reading (notes/assumptions/17.md), so the basis is derived. -/
def Obligations.ByteAccessorsFollowTheirRules : Prop :=
  ∀ (s : State) (a : Nat) (v : Int),
    (s.params.memSize ≤ a → readByte a s = .error (.outOfRange a) ∧ writeByte a v s = .error (.outOfRange a) ∧
      perform (.readByte a) s = (s, .refused (.outOfRange a)) ∧ perform (.writeByte a v) s = (s, .refused (.outOfRange a))) ∧
    (a < s.params.memSize → readByte a s = .ok (Memory.byte s.mem a) ∧
      perform (.readByte a) s = (s, .byte (Memory.byte s.mem a)) ∧
      ∃ t : State, writeByte a v s = .ok t ∧ perform (.writeByte a v) s = (t, .done) ∧ t = { s with mem := t.mem } ∧
        (Memory.wf s.mem = true →
          ((Memory.byte t.mem a).toNat : Int) = v % 2 ^ 8 ∧ ∀ a', a' ≠ a → Memory.byte t.mem a' = Memory.byte s.mem a'))

/-- Byte order (R51). -/
def Obligations.WordsAreLittleEndian : Prop :=
  ∀ (m : Memory) (a : Nat) (v : Word),
    (Memory.word m a).toNat = wordAt m a ∧
    (Memory.wf m = true → ∀ k, k < 4 →
      Memory.byte (Memory.setWord m a v) (a + k) = BitVec.ofNat 8 (v.toNat / 2 ^ (8 * k)))

/-- The point of the canonical form, which is the model's own (notes/assumptions/3.md). -/
def Obligations.CanonicalMemoriesAreEqualWhenTheyReadAlike : Prop :=
  ∀ m m' : Memory, Memory.wf m = true → Memory.wf m' = true → (∀ a, Memory.byte m a = Memory.byte m' a) → m = m'

/-- Instruction-fetch coherence: `pc` has already advanced when STORE executes, so it names the next instruction. -/
def Obligations.StoreIsSeenByTheNextFetch : Prop :=
  ∀ (s : State) (base src : RegIx) (i : Instr), Legal s → s.halted = false → Fetchable s →
    indirectAddress base s = s.pc.toNat → decode s.params (State.x s src) = .ok i →
    ∃ t : State, exec (.store base src) s = .next t ∧
      step t = exec i { t with ir := State.x s src, pc := s.pc + 4#32 }

/-- The stack convention over the four base instructions; the spec marks the sequence as derived. -/
def Obligations.PushThenPopRestores : Prop :=
  ∀ (s : State) (n : RegIx), n ≠ spIx → Memory.wf s.mem = true →
    4 ≤ (State.sp s).toNat → (State.sp s).toNat ≤ s.params.memSize → (State.sp s).toNat % 4 = 0 →
    ∃ t : State, execAll (pushSequence n ++ popSequence n) s = some t ∧
      t.regs = s.regs ∧ t.flags = addFlags (State.sp s - 4#32) 4#32 ∧ t.cycleCount = s.cycleCount + 4 ∧ t.pc = s.pc ∧
      Memory.word t.mem ((State.sp s).toNat - 4) = State.x s n ∧
      ∀ a, a < (State.sp s).toNat - 4 ∨ (State.sp s).toNat ≤ a → Memory.byte t.mem a = Memory.byte s.mem a

/-- The reset law (R40). The value of SP where STACK_BASE is 2^32 is the model's reading (notes/assumptions/7.md), so the basis is derived. -/
def Obligations.ResetReturnsToConstruction : Prop :=
  ∀ (c : Config) (init : List Byte) (s0 s : State), construct c init = some s0 → s.params = c →
    (warmReset s).regs = s0.regs ∧ (warmReset s).pc = s0.pc ∧ (warmReset s).ir = s0.ir ∧
    (warmReset s).flags = s0.flags ∧ (warmReset s).running = s0.running ∧ (warmReset s).halted = s0.halted ∧
    (warmReset s).cycleCount = s0.cycleCount ∧ State.sp (warmReset s) = BitVec.ofNat 32 (c.memSize - c.stackSize)

/-- The table of values after construction. The engine values are decision D33, the untouched memory of reset D8, the 0x00 of a byte not given notes/assumptions/3.md, the default parameters notes/assumptions/2.md, the SP of a STACK_BASE of 2^32 notes/assumptions/7.md. -/
def Obligations.ConstructionLeavesTheListedValues : Prop :=
  (∀ (c : Config) (init : List Byte), c.valid = true → ∃ s : State, construct c init = some s ∧
    (∀ i : RegIx, i ≠ spIx → State.x s i = 0#32) ∧ State.sp s = BitVec.ofNat 32 (c.memSize - c.stackSize) ∧
    s.pc = 0#32 ∧ s.ir = 0#32 ∧ s.flags = ⟨false, false, false, false, false⟩ ∧ s.running = false ∧ s.halted = false ∧
    s.cycleCount = 0 ∧ s.params = c ∧
    (∀ a, Memory.byte s.mem a = if a < c.memSize then init.getD a 0#8 else 0#8)) ∧
  (∀ s : State, (warmReset s).mem = s.mem) ∧
  construct Config.default [] = some State.reset

/-- A load that fits; the refusal is in StepRaisesNoHostFault. That nothing else changes is decision D25. -/
def Obligations.LoadProgramCopiesAndSetsPc : Prop :=
  ∀ (bytes : List Byte) (start : Nat) (s : State), start + bytes.length ≤ s.params.memSize →
    ∃ t : State, loadProgram bytes start s = .ok t ∧ t.pc = BitVec.ofNat 32 start ∧
      t = { s with pc := t.pc, mem := t.mem } ∧
      (Memory.wf s.mem = true →
        (∀ k, k < bytes.length → Memory.byte t.mem (start + k) = bytes.getD k 0#8) ∧
        (∀ a, a < start ∨ start + bytes.length ≤ a → Memory.byte t.mem a = Memory.byte s.mem a))

/-- The three ends of `run`, each tied to its steps. Decisions D10 and D11; the clause on a halted core is the model's reading (notes/assumptions/8.md), and that the cap is a natural number its choice (notes/assumptions/20.md). -/
def Obligations.RunEndsInOneOfThreeWays : Prop :=
  ∀ (n : Nat) (s : State),
    perform (.run n) s = (run n s, .ran (runEnd (run n s))) ∧
    (s.halted = true → run n s = { s with running := true }) ∧
    (s.halted = false →
      (∃ m, m + 1 ≤ n ∧ run n s = afterSteps (m + 1) { s with running := true } ∧
        (∀ j, j ≤ m → stepReport (afterSteps j { s with running := true }) = .executed) ∧
        Executes .halt (afterSteps m { s with running := true }) ∧
        (run n s).halted = true ∧ (run n s).running = false ∧ runEnd (run n s) = .halted) ∨
      (∃ m f, m + 1 ≤ n ∧ run n s = afterSteps (m + 1) { s with running := true } ∧
        (∀ j, j < m → stepReport (afterSteps j { s with running := true }) = .executed) ∧
        stepReport (afterSteps m { s with running := true }) = .fault f ∧
        (run n s).halted = false ∧ (run n s).running = false ∧ (run n s).faulted = some f ∧ runEnd (run n s) = .fault f) ∨
      (run n s = afterSteps n { s with running := true } ∧
        (∀ j, j < n → stepReport (afterSteps j { s with running := true }) = .executed) ∧
        (run n s).halted = false ∧ (run n s).running = true ∧ runEnd (run n s) = .capped))

/-- The snapshot (R325). -/
def Obligations.SnapshotShowsTheStateAndChangesNothing : Prop :=
  ∀ (s : State) (ir' : Word) (mem' : Memory),
    perform .getState s = (s, .snapshot (getState s)) ∧
    (∀ i : RegIx, (getState s).registers[i.val] = State.x s i) ∧ (getState s).sp = State.x s 8 ∧
    (getState s).pc = s.pc ∧ (getState s).flags = s.flags ∧ (getState s).running = s.running ∧
    (getState s).halted = s.halted ∧ (getState s).cycleCount = s.cycleCount ∧
    getState { s with ir := ir', mem := mem' } = getState s

/-- The diagnostic register port, masking included. That it is the host's is decision D27; the types of its value and its index are the model's (notes/assumptions/17.md, 19.md). -/
def Obligations.RegisterPortReachesNineRegistersAndThreeMore : Prop :=
  ∀ (s : State) (v : Int),
    (∀ i : RegIx, regGet i.val s = .ok (State.x s i) ∧
      ∃ t : State, regSet i.val v s = .ok t ∧ t = { s with regs := t.regs } ∧
        ∀ j : RegIx, State.x t j = if j = i then BitVec.ofInt 32 v else State.x s j) ∧
    regGet 0x10 s = .ok s.pc ∧ regSet 0x10 v s = .ok { s with pc := BitVec.ofInt 32 v } ∧
    regGet 0x11 s = .ok s.ir ∧ regSet 0x11 v s = .ok { s with ir := BitVec.ofInt 32 v } ∧
    regGet 0x12 s = .ok (State.x s 8) ∧ regSet 0x12 v s = regSet 8 v s ∧
    (∀ n : Nat, 8 < n → n ≠ 0x10 → n ≠ 0x11 → n ≠ 0x12 →
      regGet n s = .error (.invalidRegister n) ∧ perform (.regSet n v) s = (s, .refused (.invalidRegister n)))

/-- The first round-trip law, for every `OPCODE_MAP`. The zero filler of unused fields is decision D26. -/
def Obligations.EncodeThenDecodeIsIdentity : Prop :=
  ∀ (c : Config) (i : Instr), c.valid = true → wellFormed c i = true →
    ∃ w : Word, encode c i = some w ∧ decode c w = .ok i

/-- The second round-trip law. That unread bits are ignored is decision D9, that the encoder writes zeros D26. -/
def Obligations.DecodeThenEncodeIsCanonical : Prop :=
  ∀ (c : Config) (w : Word) (i : Instr), c.valid = true → decode c w = .ok i →
    wellFormed c i = true ∧ encode c i = some (canonical i.opcode w) ∧ (canonical i.opcode w = w → encode c i = some w)

/-- Unread bits; decision D9. -/
def Obligations.DecodeIgnoresUnreadBits : Prop :=
  ∀ (c : Config) (w w' : Word) (op : Opcode), c.lookup (opcodeField w) = some op → canonical op w = canonical op w' →
    decode c w = decode c w'

/-- Illegal opcodes. The default numbers are decision D1, the tiers decision D2. -/
def Obligations.OpcodesOutsideTheMapAreUnknown : Prop :=
  (∀ (c : Config) (w : Word), c.lookup (opcodeField w) = none → decode c w = .error (.unknownOpcode (opcodeField w))) ∧
  (∀ (c : Config) (b : Byte) (op : Opcode) (w : Word), c.valid = true → c.tierD = false → op.tier = .d →
    (b, op) ∈ c.opcodeMap → opcodeField w = b → decode c w = .error (.unknownOpcode b)) ∧
  ((List.range 256).filter (fun n => (Config.default.lookup (BitVec.ofNat 8 n)).isNone)).length = 210

/-- Sign extension (R85), in the value and in every REG_IMM instruction. -/
def Obligations.ImmediatesAreSignExtended : Prop :=
  (∀ v : Half,
    (v.msb = true → sext16 v = BitVec.setWidth 32 v ||| 0xFFFF0000#32) ∧ (v.msb = false → sext16 v = BitVec.setWidth 32 v) ∧
    (sext16 v).toInt = v.toInt ∧ -32768 ≤ (sext16 v).toInt ∧ (sext16 v).toInt ≤ 32767 ∧
    ((sext16 v).toNat ≤ 0x7FFF ∨ 0xFFFF8000 ≤ (sext16 v).toNat)) ∧
  (∀ (c : Config) (w : Word) (i : Instr), decode c w = .ok i → i.opcode.shape = .regImm →
    i.record.immediate = some (sext16 (operandField w)))

/-- The eleven words of the table of worked encodings; their numbers are decision D1. -/
def Obligations.WorkedWordsDecodeAndEncode : Prop :=
  decode Config.default 0x00000000#32 = .ok .nop ∧ encode Config.default .nop = some 0x00000000#32 ∧
  decode Config.default 0x01000000#32 = .ok .halt ∧ encode Config.default .halt = some 0x01000000#32 ∧
  decode Config.default 0x1100FFFF#32 = .ok (.movImm 0 0xFFFFFFFF#32) ∧ encode Config.default (.movImm 0 0xFFFFFFFF#32) = some 0x1100FFFF#32 ∧
  decode Config.default 0x110107D0#32 = .ok (.movImm 1 2000#32) ∧ encode Config.default (.movImm 1 2000#32) = some 0x110107D0#32 ∧
  decode Config.default 0x20000002#32 = .ok (.addReg 0 2) ∧ encode Config.default (.addReg 0 2) = some 0x20000002#32 ∧
  decode Config.default 0x28010003#32 = .ok (.addcReg 1 3) ∧ encode Config.default (.addcReg 1 3) = some 0x28010003#32 ∧
  decode Config.default 0x23080004#32 = .ok (.subImm 8 4#32) ∧ encode Config.default (.subImm 8 4#32) = some 0x23080004#32 ∧
  decode Config.default 0x36050000#32 = .ok (.notReg 5) ∧ encode Config.default (.notReg 5) = some 0x36050000#32 ∧
  decode Config.default 0x12020001#32 = .ok (.load 2 1) ∧ encode Config.default (.load 2 1) = some 0x12020001#32 ∧
  decode Config.default 0x13080003#32 = .ok (.store 8 3) ∧ encode Config.default (.store 8 3) = some 0x13080003#32 ∧
  decode Config.default 0x62000048#32 = .ok (.jnz 72#16) ∧ encode Config.default (.jnz 72#16) = some 0x62000048#32 ∧
  (∀ n : RegIx,
    encodeProgram Config.default (pushSequence n)
      = some (bytesOfWord 0x23080004#32 ++ bytesOfWord (0x13080000#32 + BitVec.ofNat 32 n.val)) ∧
    encodeProgram Config.default (popSequence n)
      = some (bytesOfWord (0x12000008#32 + BitVec.ofNat 32 (65536 * n.val)) ++ bytesOfWord 0x21080004#32))

/-- The assembler's output as `load_program` takes it; the spec marks its layout as derived. -/
def Obligations.AssembledBytesDecodeToTheProgram : Prop :=
  ∀ (c : Config) (program : List Instr) (bytes : List Byte), c.valid = true → encodeProgram c program = some bytes →
    bytes.length = 4 * program.length ∧ decodeMany c program.length bytes = some program
end

