-- ==== Sys2Proof/Laws/Decode.lean ====
section
/-! SUPPORT. The fields of a packed word, byte order, sign extension, and `OPCODE_MAP` read in both directions. -/

namespace Sys2Proof

@[simp] theorem opcodeField_packFields (n r : Byte) (o : Half) : opcodeField (packFields n r o) = n := by
  ext i hi
  simp only [opcodeField, packFields, BitVec.getElem_extractLsb', BitVec.getLsbD_append]
  rw [if_neg (by omega), if_neg (by omega), show 24 + i - 16 - 8 = i by omega, BitVec.getLsbD_eq_getElem hi]

@[simp] theorem reg1Field_packFields (n r : Byte) (o : Half) : reg1Field (packFields n r o) = r := by
  ext i hi
  simp only [reg1Field, packFields, BitVec.getElem_extractLsb', BitVec.getLsbD_append]
  rw [if_neg (by omega), if_pos (by omega), show 16 + i - 16 = i by omega, BitVec.getLsbD_eq_getElem hi]

@[simp] theorem operandField_packFields (n r : Byte) (o : Half) : operandField (packFields n r o) = o := by
  ext i hi
  simp only [operandField, packFields, BitVec.getElem_extractLsb', BitVec.getLsbD_append]
  rw [if_pos (by omega), show 0 + i = i by omega, BitVec.getLsbD_eq_getElem hi]

@[simp] theorem reg2Field_packFields (n r : Byte) (o : Half) : reg2Field (packFields n r o) = BitVec.setWidth 8 o := by
  ext i hi
  simp only [reg2Field, packFields, BitVec.getElem_extractLsb', BitVec.getLsbD_append, BitVec.getElem_setWidth]
  rw [if_pos (by omega), show 0 + i = i by omega]

/-- A word is its three fields. -/
theorem packFields_fields (w : Word) : packFields (opcodeField w) (reg1Field w) (operandField w) = w := by
  apply BitVec.eq_of_getLsbD_eq
  intro i hi
  simp only [packFields, opcodeField, reg1Field, operandField, BitVec.getLsbD_append, BitVec.getLsbD_extractLsb']
  split
  · simp_all
  · split
    · rw [show 16 + (i - 16) = i by omega]
      simp_all
    · rw [show 24 + (i - 16 - 8) = i by omega]
      simp
      omega

/-- The second register field is the low byte of the operand. -/
theorem reg2Field_eq (w : Word) : reg2Field w = BitVec.setWidth 8 (operandField w) := by
  conv_lhs => rw [← packFields_fields w]
  rw [reg2Field_packFields]

/-- The bytes of a word put together again are the word (R51). -/
@[simp] theorem wordOfBytes_byteOfWord (v : Word) :
    wordOfBytes (byteOfWord v 0) (byteOfWord v 1) (byteOfWord v 2) (byteOfWord v 3) = v := by
  apply BitVec.eq_of_getLsbD_eq
  intro i hi
  simp only [wordOfBytes, byteOfWord, BitVec.getLsbD_append, BitVec.getLsbD_extractLsb']
  split
  · simp_all
  · split
    · rw [show 8 * 1 + (i - 8) = i by omega]
      simp_all
    · split
      · rw [show 8 * 2 + (i - 8 - 8) = i by omega]
        simp_all
      · rw [show 8 * 3 + (i - 8 - 8 - 8) = i by omega]
        simp
        omega

/-- The sign extension of R85 is the library's. -/
theorem sext16_eq_signExtend (v : Half) : sext16 v = BitVec.signExtend 32 v := by
  have hm : v.msb = v.getLsbD 15 := by simp [BitVec.msb_eq_getLsbD_last]
  have hc : ∀ i < 32, (0xFFFF0000#32).getLsbD i = decide (16 ≤ i) := by decide
  apply BitVec.eq_of_getLsbD_eq
  intro i hi
  rw [BitVec.getLsbD_signExtend, hm]
  unfold sext16
  cases h : v.getLsbD 15 with
  | false =>
    rw [if_neg (by simp), BitVec.getLsbD_setWidth]
    by_cases h16 : i < 16
    · simp [h16, hi]
    · simp only [h16, if_false, Bool.and_false, BitVec.getLsbD_of_ge v i (by omega)]
  | true =>
    rw [if_pos rfl, BitVec.getLsbD_or, hc i hi]
    by_cases h16 : i < 16
    · simp [h16, hi]
    · have : 16 ≤ i := by omega
      simp [h16, hi, this]

/-- A register field that passes its check is the index's byte. -/
theorem checkReg_ok (r : Byte) (i : RegIx) : checkReg r = .ok i ↔ r = BitVec.ofNat 8 i.val := by
  unfold checkReg
  split
  · rename_i h
    constructor
    · intro e
      cases e
      simp
    · intro e
      subst e
      congr 1
      exact Fin.ext (by simp; omega)
  · rename_i h
    constructor
    · intro e
      cases e
    · intro e
      subst e
      exact absurd (by simp; omega) h

theorem find_of_nodup_map {α β : Type} [DecidableEq β] (f : α → β) :
    ∀ (l : List α) (e : α), (l.map f).Nodup → e ∈ l → l.find? (fun x => decide (f x = f e)) = some e
  | [], _, _, h => by cases h
  | x :: rest, e, hn, h => by
    rw [List.map_cons, List.nodup_cons] at hn
    rcases List.mem_cons.mp h with rfl | h'
    · simp
    · have hne : f x ≠ f e := fun he => hn.1 (he ▸ List.mem_map_of_mem h')
      rw [List.find?_cons_of_neg (by simpa using hne)]
      exact find_of_nodup_map f rest e hn.2 h'

/-- What `valid` says of `OPCODE_MAP`, for the rows the instance has: numbers and identities occur once. -/
theorem Config.opcodes_nodup {c : Config} (h : c.valid = true) :
    (c.opcodes.map (·.1)).Nodup ∧ (c.opcodes.map (·.2)).Nodup := by
  simp only [Config.valid, Bool.and_eq_true, decide_eq_true_eq] at h
  have h1 := h.1.1.2
  have h2 := h.1.2
  unfold Config.opcodes
  split
  · exact ⟨h1, h2⟩
  · exact ⟨List.Nodup.sublist (List.Sublist.map _ List.filter_sublist) h1,
      List.Nodup.sublist (List.Sublist.map _ List.filter_sublist) h2⟩

/-- In a valid instance the number of an identity and the identity of a number are the same rows. -/
theorem Config.lookup_iff_number {c : Config} (h : c.valid = true) (b : Byte) (op : Opcode) :
    c.lookup b = some op ↔ c.number op = some b := by
  obtain ⟨h1, h2⟩ := Config.opcodes_nodup h
  have key : ∀ e ∈ c.opcodes, c.lookup e.1 = some e.2 ∧ c.number e.2 = some e.1 := by
    intro e he
    unfold Config.lookup Config.number
    rw [find_of_nodup_map (·.1) c.opcodes e h1 he, find_of_nodup_map (·.2) c.opcodes e h2 he]
    exact ⟨rfl, rfl⟩
  constructor
  · intro hl
    unfold Config.lookup at hl
    obtain ⟨e, he, rfl⟩ := Option.map_eq_some_iff.mp hl
    have hb : e.1 = b := by simpa using List.find?_some he
    subst hb
    exact (key e (List.mem_of_find?_eq_some he)).2
  · intro hl
    unfold Config.number at hl
    obtain ⟨e, he, rfl⟩ := Option.map_eq_some_iff.mp hl
    have hb : e.2 = op := by simpa using List.find?_some he
    subst hb
    exact (key e (List.mem_of_find?_eq_some he)).1

end Sys2Proof
end

