-- ==== Sys2Proof/Laws/Memory.lean ====
section
/-! SUPPORT. The laws of memory: the canonical form is kept by every operation, a write is read back, and it changes nothing else. -/

namespace Sys2Proof.Machine

theorem Memory.wfFrom_mono {lo lo' : Nat} (h : lo' ≤ lo) : ∀ m : Memory, Memory.wfFrom lo m = true → Memory.wfFrom lo' m = true
  | [], _ => rfl
  | (k, v) :: rest, hm => by
    simp only [Memory.wfFrom, Bool.and_eq_true, decide_eq_true_eq] at hm ⊢
    exact ⟨⟨by omega, hm.1.2⟩, hm.2⟩

/-- An address below the first listed one reads as 0x00. -/
theorem Memory.byte_below {lo a : Nat} (h : a < lo) : ∀ m : Memory, Memory.wfFrom lo m = true → Memory.byte m a = 0#8
  | [], _ => rfl
  | (k, v) :: rest, hm => by
    simp only [Memory.wfFrom, Bool.and_eq_true, decide_eq_true_eq] at hm
    rw [Memory.byte, if_neg (by omega)]
    exact Memory.byte_below (by omega) rest hm.2

/-- A byte write leaves every other address alone. -/
theorem Memory.byte_setByte_other {a a' : Nat} (b : Byte) (h : a' ≠ a) :
    ∀ m : Memory, Memory.byte (Memory.setByte m a b) a' = Memory.byte m a'
  | [] => by
    unfold Memory.setByte
    split <;> simp [Memory.byte, h]
  | (k, v) :: rest => by
    unfold Memory.setByte
    split
    · split <;> simp [Memory.byte, h]
    · split
      · subst_vars
        split <;> simp [Memory.byte, h]
      · simp only [Memory.byte, Memory.byte_setByte_other b h rest]

/-- A byte write is read back. -/
theorem Memory.byte_setByte_self {lo : Nat} (a : Nat) (b : Byte) :
    ∀ m : Memory, Memory.wfFrom lo m = true → Memory.byte (Memory.setByte m a b) a = b
  | [], _ => by
    unfold Memory.setByte
    split <;> simp_all [Memory.byte]
  | (k, v) :: rest, hm => by
    simp only [Memory.wfFrom, Bool.and_eq_true, decide_eq_true_eq] at hm
    unfold Memory.setByte
    split
    · split
      · rename_i h1 h2
        rw [Memory.byte, if_neg (by omega), h2]
        exact Memory.byte_below (by omega) rest hm.2
      · simp [Memory.byte]
    · split
      · subst_vars
        split
        · rename_i h2
          rw [h2]
          exact Memory.byte_below (Nat.lt_succ_self _) rest hm.2
        · simp [Memory.byte]
      · rename_i h1 h2
        rw [Memory.byte, if_neg h2]
        exact Memory.byte_setByte_self a b rest hm.2

/-- Reading after a byte write, in one equation. -/
theorem Memory.byte_setByte {m : Memory} (hm : Memory.wf m = true) (a a' : Nat) (b : Byte) :
    Memory.byte (Memory.setByte m a b) a' = if a' = a then b else Memory.byte m a' := by
  by_cases h : a' = a
  · rw [if_pos h, h]
    exact Memory.byte_setByte_self a b m hm
  · rw [if_neg h]
    exact Memory.byte_setByte_other b h m

theorem Memory.wfFrom_setByte {lo a : Nat} (b : Byte) (h : lo ≤ a) :
    ∀ m : Memory, Memory.wfFrom lo m = true → Memory.wfFrom lo (Memory.setByte m a b) = true := by
  intro m
  induction m generalizing lo with
  | nil =>
    intro _
    unfold Memory.setByte
    split <;> simp_all [Memory.wfFrom]
  | cons cell rest ih =>
    obtain ⟨k, v⟩ := cell
    intro hm
    have hm' := hm
    simp only [Memory.wfFrom, Bool.and_eq_true, decide_eq_true_eq] at hm
    unfold Memory.setByte
    split
    · split
      · exact hm'
      · rename_i h1 h2
        simp only [Memory.wfFrom, Bool.and_eq_true, decide_eq_true_eq]
        exact ⟨⟨h, h2⟩, ⟨by omega, hm.1.2⟩, hm.2⟩
    · split
      · split
        · exact Memory.wfFrom_mono (by omega) rest hm.2
        · rename_i h1 h2 h3
          simp only [Memory.wfFrom, Bool.and_eq_true, decide_eq_true_eq]
          exact ⟨⟨h, h3⟩, h2 ▸ hm.2⟩
      · rename_i h1 h2
        simp only [Memory.wfFrom, Bool.and_eq_true, decide_eq_true_eq]
        exact ⟨hm.1, ih (by omega) hm.2⟩

/-- A byte write keeps the canonical form. -/
theorem Memory.wf_setByte {m : Memory} (hm : Memory.wf m = true) (a : Nat) (b : Byte) :
    Memory.wf (Memory.setByte m a b) = true :=
  Memory.wfFrom_setByte b (Nat.zero_le a) m hm

/-- A word write keeps the canonical form. -/
theorem Memory.wf_setWord {m : Memory} (hm : Memory.wf m = true) (a : Nat) (v : Word) :
    Memory.wf (Memory.setWord m a v) = true :=
  Memory.wf_setByte (Memory.wf_setByte (Memory.wf_setByte (Memory.wf_setByte hm _ _) _ _) _ _) _ _

/-- A copy of bytes keeps the canonical form. -/
theorem Memory.wf_setBytes (bytes : List Byte) : ∀ {m : Memory}, Memory.wf m = true → ∀ a : Nat,
    Memory.wf (Memory.setBytes m a bytes) = true := by
  induction bytes with
  | nil => exact fun hm _ => hm
  | cons b rest ih => exact fun hm a => ih (Memory.wf_setByte hm a b) (a + 1)

/-- A byte write below `size` keeps every listed address below `size`. -/
theorem Memory.inside_setByte {size a : Nat} (b : Byte) (h : a < size) :
    ∀ m : Memory, Memory.inside m size = true → Memory.inside (Memory.setByte m a b) size = true
  | [], _ => by
    unfold Memory.setByte
    split <;> simp_all [Memory.inside]
  | (k, v) :: rest, hm => by
    have ih := Memory.inside_setByte b h rest
    unfold Memory.setByte
    simp only [Memory.inside, List.all_cons, Bool.and_eq_true, decide_eq_true_eq] at hm ih ⊢
    split
    · split <;> simp_all <;> exact hm.2
    · split
      · split <;> simp_all <;> exact hm.2
      · simp only [List.all_cons, Bool.and_eq_true, decide_eq_true_eq]
        exact ⟨hm.1, ih hm.2⟩

/-- A word write that fits keeps every listed address below `size`. -/
theorem Memory.inside_setWord {m : Memory} {size a : Nat} (v : Word) (h : a + 4 ≤ size) (hm : Memory.inside m size = true) :
    Memory.inside (Memory.setWord m a v) size = true :=
  Memory.inside_setByte _ (by omega) _ (Memory.inside_setByte _ (by omega) _ (Memory.inside_setByte _ (by omega) _
    (Memory.inside_setByte _ (by omega) _ hm)))

/-- A copy of bytes that fits keeps every listed address below `size`. -/
theorem Memory.inside_setBytes {size : Nat} (bytes : List Byte) : ∀ {m : Memory} {a : Nat}, a + bytes.length ≤ size →
    Memory.inside m size = true → Memory.inside (Memory.setBytes m a bytes) size = true := by
  induction bytes with
  | nil => exact fun _ hm => hm
  | cons b rest ih =>
    intro m a h hm
    rw [List.length_cons] at h
    exact ih (by omega) (Memory.inside_setByte b (by omega) m hm)

/-- The bytes after a word write: the four written ones, and every other byte as before. -/
theorem Memory.byte_setWord {m : Memory} (hm : Memory.wf m = true) (a a' : Nat) (v : Word) :
    Memory.byte (Memory.setWord m a v) a' =
      if a' = a then byteOfWord v 0 else if a' = a + 1 then byteOfWord v 1 else if a' = a + 2 then byteOfWord v 2
      else if a' = a + 3 then byteOfWord v 3 else Memory.byte m a' := by
  have h1 := Memory.wf_setByte hm a (byteOfWord v 0)
  have h2 := Memory.wf_setByte h1 (a + 1) (byteOfWord v 1)
  have h3 := Memory.wf_setByte h2 (a + 2) (byteOfWord v 2)
  unfold Memory.setWord
  rw [Memory.byte_setByte h3, Memory.byte_setByte h2, Memory.byte_setByte h1, Memory.byte_setByte hm]
  by_cases e0 : a' = a
  · subst e0; simp
  · by_cases e1 : a' = a + 1
    · subst e1; simp
    · by_cases e2 : a' = a + 2
      · subst e2; simp
      · by_cases e3 : a' = a + 3 <;> simp_all

/-- A word write leaves every byte outside its four alone. -/
theorem Memory.byte_setWord_other (m : Memory) {a a' : Nat} (v : Word) (h : a' < a ∨ a + 4 ≤ a') :
    Memory.byte (Memory.setWord m a v) a' = Memory.byte m a' := by
  unfold Memory.setWord
  rw [Memory.byte_setByte_other _ (by omega), Memory.byte_setByte_other _ (by omega), Memory.byte_setByte_other _ (by omega),
    Memory.byte_setByte_other _ (by omega)]

end Sys2Proof.Machine
end

