-- ==== Sys2Proof/Laws/State.lean ====
section
/-! SUPPORT. One lemma per field per update of the state, and the register file's read after write. -/

namespace Sys2Proof.Machine

@[simp] theorem setX_regs (s : State) (i : RegIx) (v : Word) : (State.setX s i v).regs = s.regs.set i.val v := rfl
@[simp] theorem setX_pc (s : State) (i : RegIx) (v : Word) : (State.setX s i v).pc = s.pc := rfl
@[simp] theorem setX_ir (s : State) (i : RegIx) (v : Word) : (State.setX s i v).ir = s.ir := rfl
@[simp] theorem setX_flags (s : State) (i : RegIx) (v : Word) : (State.setX s i v).flags = s.flags := rfl
@[simp] theorem setX_running (s : State) (i : RegIx) (v : Word) : (State.setX s i v).running = s.running := rfl
@[simp] theorem setX_halted (s : State) (i : RegIx) (v : Word) : (State.setX s i v).halted = s.halted := rfl
@[simp] theorem setX_cycleCount (s : State) (i : RegIx) (v : Word) : (State.setX s i v).cycleCount = s.cycleCount := rfl
@[simp] theorem setX_mem (s : State) (i : RegIx) (v : Word) : (State.setX s i v).mem = s.mem := rfl
@[simp] theorem setX_params (s : State) (i : RegIx) (v : Word) : (State.setX s i v).params = s.params := rfl
@[simp] theorem setX_faulted (s : State) (i : RegIx) (v : Word) : (State.setX s i v).faulted = s.faulted := rfl

@[simp] theorem setFlags_regs (s : State) (f : Flags) : (State.setFlags s f).regs = s.regs := rfl
@[simp] theorem setFlags_pc (s : State) (f : Flags) : (State.setFlags s f).pc = s.pc := rfl
@[simp] theorem setFlags_ir (s : State) (f : Flags) : (State.setFlags s f).ir = s.ir := rfl
@[simp] theorem setFlags_flags (s : State) (f : Flags) : (State.setFlags s f).flags = f := rfl
@[simp] theorem setFlags_running (s : State) (f : Flags) : (State.setFlags s f).running = s.running := rfl
@[simp] theorem setFlags_halted (s : State) (f : Flags) : (State.setFlags s f).halted = s.halted := rfl
@[simp] theorem setFlags_cycleCount (s : State) (f : Flags) : (State.setFlags s f).cycleCount = s.cycleCount := rfl
@[simp] theorem setFlags_mem (s : State) (f : Flags) : (State.setFlags s f).mem = s.mem := rfl
@[simp] theorem setFlags_params (s : State) (f : Flags) : (State.setFlags s f).params = s.params := rfl
@[simp] theorem setFlags_faulted (s : State) (f : Flags) : (State.setFlags s f).faulted = s.faulted := rfl
@[simp] theorem setFlags_x (s : State) (f : Flags) (j : RegIx) : State.x (State.setFlags s f) j = State.x s j := rfl

@[simp] theorem setPc_regs (s : State) (v : Word) : (State.setPc s v).regs = s.regs := rfl
@[simp] theorem setPc_pc (s : State) (v : Word) : (State.setPc s v).pc = v := rfl
@[simp] theorem setPc_ir (s : State) (v : Word) : (State.setPc s v).ir = s.ir := rfl
@[simp] theorem setPc_flags (s : State) (v : Word) : (State.setPc s v).flags = s.flags := rfl
@[simp] theorem setPc_running (s : State) (v : Word) : (State.setPc s v).running = s.running := rfl
@[simp] theorem setPc_halted (s : State) (v : Word) : (State.setPc s v).halted = s.halted := rfl
@[simp] theorem setPc_cycleCount (s : State) (v : Word) : (State.setPc s v).cycleCount = s.cycleCount := rfl
@[simp] theorem setPc_mem (s : State) (v : Word) : (State.setPc s v).mem = s.mem := rfl
@[simp] theorem setPc_params (s : State) (v : Word) : (State.setPc s v).params = s.params := rfl
@[simp] theorem setPc_faulted (s : State) (v : Word) : (State.setPc s v).faulted = s.faulted := rfl
@[simp] theorem setPc_x (s : State) (v : Word) (j : RegIx) : State.x (State.setPc s v) j = State.x s j := rfl

@[simp] theorem afterFetch_regs (s : State) (w : Word) : (afterFetch w s).regs = s.regs := rfl
@[simp] theorem afterFetch_pc (s : State) (w : Word) : (afterFetch w s).pc = s.pc + 4 := rfl
@[simp] theorem afterFetch_ir (s : State) (w : Word) : (afterFetch w s).ir = w := rfl
@[simp] theorem afterFetch_flags (s : State) (w : Word) : (afterFetch w s).flags = s.flags := rfl
@[simp] theorem afterFetch_running (s : State) (w : Word) : (afterFetch w s).running = s.running := rfl
@[simp] theorem afterFetch_halted (s : State) (w : Word) : (afterFetch w s).halted = s.halted := rfl
@[simp] theorem afterFetch_cycleCount (s : State) (w : Word) : (afterFetch w s).cycleCount = s.cycleCount := rfl
@[simp] theorem afterFetch_mem (s : State) (w : Word) : (afterFetch w s).mem = s.mem := rfl
@[simp] theorem afterFetch_params (s : State) (w : Word) : (afterFetch w s).params = s.params := rfl
@[simp] theorem afterFetch_faulted (s : State) (w : Word) : (afterFetch w s).faulted = s.faulted := rfl
@[simp] theorem afterFetch_x (s : State) (w : Word) (j : RegIx) : State.x (afterFetch w s) j = State.x s j := rfl

@[simp] theorem placeAtPc_regs (s : State) (w : Word) : (placeAtPc w s).regs = s.regs := rfl
@[simp] theorem placeAtPc_pc (s : State) (w : Word) : (placeAtPc w s).pc = s.pc := rfl
@[simp] theorem placeAtPc_ir (s : State) (w : Word) : (placeAtPc w s).ir = s.ir := rfl
@[simp] theorem placeAtPc_flags (s : State) (w : Word) : (placeAtPc w s).flags = s.flags := rfl
@[simp] theorem placeAtPc_running (s : State) (w : Word) : (placeAtPc w s).running = s.running := rfl
@[simp] theorem placeAtPc_halted (s : State) (w : Word) : (placeAtPc w s).halted = s.halted := rfl
@[simp] theorem placeAtPc_cycleCount (s : State) (w : Word) : (placeAtPc w s).cycleCount = s.cycleCount := rfl
@[simp] theorem placeAtPc_mem (s : State) (w : Word) : (placeAtPc w s).mem = Memory.setWord s.mem s.pc.toNat w := rfl
@[simp] theorem placeAtPc_params (s : State) (w : Word) : (placeAtPc w s).params = s.params := rfl
@[simp] theorem placeAtPc_faulted (s : State) (w : Word) : (placeAtPc w s).faulted = s.faulted := rfl
@[simp] theorem placeAtPc_x (s : State) (w : Word) (j : RegIx) : State.x (placeAtPc w s) j = State.x s j := rfl

/-- A register write is read back, and no other register changes (R21, R23). -/
theorem setX_x (s : State) (i j : RegIx) (v : Word) : State.x (State.setX s i v) j = if j = i then v else State.x s j := by
  simp only [State.x, State.setX, Vector.getElem_set]
  by_cases h : j = i
  · simp [h]
  · have : i.val ≠ j.val := fun e => h (Fin.ext e.symm)
    simp [h, this]

@[simp] theorem setX_x_self (s : State) (i : RegIx) (v : Word) : State.x (State.setX s i v) i = v := by
  rw [setX_x, if_pos rfl]

theorem setX_x_other (s : State) (i j : RegIx) (v : Word) (h : j ≠ i) : State.x (State.setX s i v) j = State.x s j := by
  rw [setX_x, if_neg h]

/-- Two states with equal fields are equal. -/
theorem State.ext_fields (s t : State) (h1 : s.regs = t.regs) (h2 : s.pc = t.pc) (h3 : s.ir = t.ir) (h4 : s.flags = t.flags)
    (h5 : s.running = t.running) (h6 : s.halted = t.halted) (h7 : s.cycleCount = t.cycleCount) (h8 : s.mem = t.mem)
    (h9 : s.params = t.params) (h10 : s.faulted = t.faulted) : s = t := by
  cases s; cases t; simp_all

end Sys2Proof.Machine
end

