-- ==== Sys2Proof/Laws/Ops.lean ====
section
/-! SUPPORT. For each shared operation, one lemma that says everything it can do. -/

namespace Sys2Proof.Machine

/-! ## The ends of a step -/

theorem retire_eq (s : State) : retire s = .next { s with cycleCount := s.cycleCount + 1, faulted := none } := rfl

theorem raiseFault_eq (f : Fault) (s : State) : raiseFault f s = .next { s with running := false, faulted := some f } := rfl

/-! ## The accessors -/

/-- A word access passes its check exactly where the word fits and the address is a multiple of 4. -/
theorem wordCheck_eq_none (size addr : Nat) : wordCheck size addr = none ↔ addr + 4 ≤ size ∧ addr % 4 = 0 := by
  unfold wordCheck
  split
  · simp; omega
  · split <;> simp <;> omega

/-- Everything a word check can report. -/
theorem wordCheck_eq_some (size addr : Nat) (f : Fault) : wordCheck size addr = some f ↔
    (size < addr + 4 ∧ f = .outOfRange addr) ∨ (addr + 4 ≤ size ∧ addr % 4 ≠ 0 ∧ f = .misaligned addr) := by
  unfold wordCheck
  split
  · rename_i h
    simp [h, Nat.not_le.mpr h, eq_comm]
  · rename_i h
    have h' : addr + 4 ≤ size := by omega
    split <;> simp_all [eq_comm]

theorem readWord_ok (addr : Nat) (s : State) (v : Word) : readWord addr s = .ok v ↔
    (addr + 4 ≤ s.params.memSize ∧ addr % 4 = 0) ∧ v = Memory.word s.mem addr := by
  rw [← wordCheck_eq_none]
  unfold readWord
  cases wordCheck s.params.memSize addr <;> simp [eq_comm]

theorem readWord_error (addr : Nat) (s : State) (f : Fault) : readWord addr s = .error f ↔
    wordCheck s.params.memSize addr = some f := by
  unfold readWord
  cases wordCheck s.params.memSize addr <;> simp

theorem writeWord_ok (addr : Nat) (v : Word) (s t : State) : writeWord addr v s = .ok t ↔
    (addr + 4 ≤ s.params.memSize ∧ addr % 4 = 0) ∧ t = { s with mem := Memory.setWord s.mem addr v } := by
  rw [← wordCheck_eq_none]
  unfold writeWord
  cases wordCheck s.params.memSize addr <;> simp [eq_comm]

theorem writeWord_error (addr : Nat) (v : Word) (s : State) (f : Fault) : writeWord addr v s = .error f ↔
    wordCheck s.params.memSize addr = some f := by
  unfold writeWord
  cases wordCheck s.params.memSize addr <;> simp

theorem readByte_ok (addr : Nat) (s : State) (v : Byte) : readByte addr s = .ok v ↔
    addr < s.params.memSize ∧ v = Memory.byte s.mem addr := by
  unfold readByte
  split <;> simp [eq_comm] <;> omega

/-- The low byte of a value is the value modulo 2^8 (R7). -/
theorem lowByte_toNat (v : Int) : ((lowByte v).toNat : Int) = v % 2 ^ 8 := by
  unfold lowByte
  rw [BitVec.toNat_ofInt]
  omega

/-- A byte is its own low byte. -/
@[simp] theorem lowByte_toNat_self (b : Byte) : lowByte b.toNat = b := by
  simp [lowByte]

theorem writeByte_ok (addr : Nat) (v : Int) (s t : State) : writeByte addr v s = .ok t ↔
    addr < s.params.memSize ∧ t = { s with mem := Memory.setByte s.mem addr (lowByte v) } := by
  unfold writeByte
  split <;> simp [eq_comm] <;> omega

/-! ## Fetch -/

/-- A fetch succeeds exactly where `pc` is in range and a multiple of 4. -/
theorem fetchWord_ok (s : State) (w : Word) : fetchWord s = .ok w ↔
    (s.pc.toNat + 4 ≤ s.params.memSize ∧ s.pc.toNat % 4 = 0) ∧ w = Memory.word s.mem s.pc.toNat := by
  rw [← readWord_ok]
  unfold fetchWord
  cases readWord s.pc.toNat s <;> simp

/-- A failed fetch reports InvalidInstruction with `pc`, whatever the read reported. -/
theorem fetchWord_error (s : State) (f : Fault) : fetchWord s = .error f ↔
    ¬(s.pc.toNat + 4 ≤ s.params.memSize ∧ s.pc.toNat % 4 = 0) ∧ f = .invalidInstruction s.pc.toNat := by
  unfold fetchWord
  cases h : readWord s.pc.toNat s with
  | ok v =>
    have := (readWord_ok s.pc.toNat s v).mp h
    simp [this]
  | error g =>
    have hn : ¬(s.pc.toNat + 4 ≤ s.params.memSize ∧ s.pc.toNat % 4 = 0) := by
      intro hc
      have := (readWord_ok s.pc.toNat s _).mpr ⟨hc, rfl⟩
      rw [h] at this
      cases this
    constructor
    · intro e
      cases e
      exact ⟨hn, rfl⟩
    · intro e
      rw [e.2]

/-! ## The handler shapes -/

/-- A two-operand handler writes its destination and the flags, and counts. -/
theorem binaryOp_eq (op : Word → Word → Flags → Word × Flags) (dest : RegIx) (b : Word) (s : State) :
    binaryOp op dest b s = .next { State.setX s dest (op (State.x s dest) b s.flags).1 with
      flags := (op (State.x s dest) b s.flags).2, cycleCount := s.cycleCount + 1, faulted := none } := rfl

/-- A DIV handler: the fault on a zero divisor, else the quotient and the flags. -/
theorem divideOp_eq (dest : RegIx) (b : Word) (s : State) :
    divideOp dest b s =
      if b = 0#32 then raiseFault .divisionByZero s
      else .next { State.setX s dest (BitVec.ofNat 32 ((State.x s dest).toNat / b.toNat)) with
        flags := divisionUpdate (BitVec.ofNat 32 ((State.x s dest).toNat / b.toNat)) s.flags
        cycleCount := s.cycleCount + 1, faulted := none } := by
  unfold divideOp aluDiv
  by_cases h : b = 0#32 <;> simp [h, retire, State.setFlags, State.setX]

theorem compareOp_eq (dest : RegIx) (b : Word) (s : State) :
    compareOp dest b s = .next { s with flags := aluCompare (State.x s dest) b s.flags, cycleCount := s.cycleCount + 1, faulted := none } :=
  rfl

/-- A jump changes `pc` where it is taken, and counts. -/
theorem jumpIf_eq (taken : Bool) (addr : Half) (s : State) :
    jumpIf taken addr s = .next { s with pc := if taken then jumpTarget addr else s.pc, cycleCount := s.cycleCount + 1, faulted := none } := by
  cases taken <;> rfl

end Sys2Proof.Machine
end

