-- ==== Sys2Proof/Laws/HostOps.lean ====
section
/-! SUPPORT. For each host operation that changes the state, one lemma that says what it can do. -/

namespace Sys2Proof.Machine

/-! ## Warm reset -/

@[simp] theorem warmReset_regs (s : State) : (warmReset s).regs = resetRegs s.params := rfl
@[simp] theorem warmReset_pc (s : State) : (warmReset s).pc = 0 := rfl
@[simp] theorem warmReset_ir (s : State) : (warmReset s).ir = 0 := rfl
@[simp] theorem warmReset_flags (s : State) : (warmReset s).flags = Flags.clear := rfl
@[simp] theorem warmReset_running (s : State) : (warmReset s).running = false := rfl
@[simp] theorem warmReset_halted (s : State) : (warmReset s).halted = false := rfl
@[simp] theorem warmReset_cycleCount (s : State) : (warmReset s).cycleCount = 0 := rfl
@[simp] theorem warmReset_mem (s : State) : (warmReset s).mem = s.mem := rfl
@[simp] theorem warmReset_params (s : State) : (warmReset s).params = s.params := rfl
@[simp] theorem warmReset_faulted (s : State) : (warmReset s).faulted = none := rfl

/-! ## Construct and load -/

theorem construct_eq_some (c : Config) (init : List Byte) (s : State) : construct c init = some s ↔
    c.valid = true ∧
      s = { State.reset with regs := resetRegs c, mem := Memory.setBytes [] 0 (init.take c.memSize), params := c } := by
  unfold construct
  split
  · rename_i h
    exact ⟨fun e => ⟨h, (Option.some.inj e).symm⟩, fun e => e.2 ▸ rfl⟩
  · rename_i h
    exact ⟨fun e => (nomatch e), fun e => absurd e.1 h⟩

theorem loadProgram_ok (bytes : List Byte) (start : Nat) (s t : State) : loadProgram bytes start s = .ok t ↔
    start + bytes.length ≤ s.params.memSize ∧
      t = { s with mem := Memory.setBytes s.mem start bytes, pc := mask32 (Int.ofNat start) } := by
  unfold loadProgram
  split <;> simp [eq_comm] <;> omega

theorem loadProgram_error (bytes : List Byte) (start : Nat) (s : State) (f : Fault) : loadProgram bytes start s = .error f ↔
    s.params.memSize < start + bytes.length ∧ f = .programTooLarge := by
  unfold loadProgram
  split <;> simp [eq_comm] <;> omega

/-! ## Step and run -/

theorem stepped_of_next {s t : State} (h : step s = .next t) : stepped s = t := by
  unfold stepped
  rw [h]

/-- The loop of `run` goes on: one step, then the rest. -/
theorem runLoop_of_running {s : State} (n : Nat) (hr : s.running = true) (hh : s.halted = false) :
    runLoop (n + 1) s = runLoop n (stepped s) := by
  simp [runLoop, hr, hh]

/-- The loop of `run` ends: the core is halted or no longer running. -/
theorem runLoop_of_stopped {s : State} (n : Nat) (h : (s.running && !s.halted) = false) : runLoop n s = s := by
  cases n <;> simp [runLoop, h]

/-- A sequence of host operations in two parts. -/
theorem performAll_append (ops ops' : List HostOp) (s : State) :
    performAll (ops ++ ops') s = performAll ops' (performAll ops s) := by
  induction ops generalizing s with
  | nil => rfl
  | cons op rest ih => exact ih _

end Sys2Proof.Machine
end

