-- ==== Sys2Proof/Laws/PerInstr.lean ====
section
/-! SUPPORT. Statements about every instruction, one lemma per constructor of Instr. -/

namespace Sys2Proof.Laws.RecordFields

/-- The fields a class populates in the decoded record (R82, R84). -/
def Populated (r : Record) : Prop :=
  match r.shape with
  | .noOperands => r.dest = none ∧ r.source = none ∧ r.immediate = none ∧ r.address = none
  | .regReg | .load | .store => r.dest.isSome = true ∧ r.source.isSome = true ∧ r.immediate = none ∧ r.address = none
  | .regImm => r.dest.isSome = true ∧ r.source = none ∧ r.immediate.isSome = true ∧ r.address = none
  | .regUnary => r.dest.isSome = true ∧ r.source = none ∧ r.immediate = none ∧ r.address = none
  | .jump => r.dest = none ∧ r.source = none ∧ r.immediate = none ∧ r.address.isSome = true

/-- The record of an instruction carries its identity and class, and populates exactly the fields of the class (R84). -/
def Statement (i : Instr) : Prop :=
  i.record.opcode = i.opcode ∧ i.record.shape = i.opcode.shape ∧ Populated i.record

theorem nop : Statement (.nop) := ⟨rfl, rfl, rfl, rfl, rfl, rfl⟩
theorem halt : Statement (.halt) := ⟨rfl, rfl, rfl, rfl, rfl, rfl⟩
theorem clc : Statement (.clc) := ⟨rfl, rfl, rfl, rfl, rfl, rfl⟩
theorem stc : Statement (.stc) := ⟨rfl, rfl, rfl, rfl, rfl, rfl⟩
theorem movReg (dest src : RegIx) : Statement (.movReg dest src) := ⟨rfl, rfl, rfl, rfl, rfl, rfl⟩
theorem movImm (dest : RegIx) (imm : Word) : Statement (.movImm dest imm) := ⟨rfl, rfl, rfl, rfl, rfl, rfl⟩
theorem load (dest base : RegIx) : Statement (.load dest base) := ⟨rfl, rfl, rfl, rfl, rfl, rfl⟩
theorem store (base src : RegIx) : Statement (.store base src) := ⟨rfl, rfl, rfl, rfl, rfl, rfl⟩
theorem addReg (dest src : RegIx) : Statement (.addReg dest src) := ⟨rfl, rfl, rfl, rfl, rfl, rfl⟩
theorem addImm (dest : RegIx) (imm : Word) : Statement (.addImm dest imm) := ⟨rfl, rfl, rfl, rfl, rfl, rfl⟩
theorem subReg (dest src : RegIx) : Statement (.subReg dest src) := ⟨rfl, rfl, rfl, rfl, rfl, rfl⟩
theorem subImm (dest : RegIx) (imm : Word) : Statement (.subImm dest imm) := ⟨rfl, rfl, rfl, rfl, rfl, rfl⟩
theorem mulReg (dest src : RegIx) : Statement (.mulReg dest src) := ⟨rfl, rfl, rfl, rfl, rfl, rfl⟩
theorem mulImm (dest : RegIx) (imm : Word) : Statement (.mulImm dest imm) := ⟨rfl, rfl, rfl, rfl, rfl, rfl⟩
theorem divReg (dest src : RegIx) : Statement (.divReg dest src) := ⟨rfl, rfl, rfl, rfl, rfl, rfl⟩
theorem divImm (dest : RegIx) (imm : Word) : Statement (.divImm dest imm) := ⟨rfl, rfl, rfl, rfl, rfl, rfl⟩
theorem addcReg (dest src : RegIx) : Statement (.addcReg dest src) := ⟨rfl, rfl, rfl, rfl, rfl, rfl⟩
theorem addcImm (dest : RegIx) (imm : Word) : Statement (.addcImm dest imm) := ⟨rfl, rfl, rfl, rfl, rfl, rfl⟩
theorem subcReg (dest src : RegIx) : Statement (.subcReg dest src) := ⟨rfl, rfl, rfl, rfl, rfl, rfl⟩
theorem subcImm (dest : RegIx) (imm : Word) : Statement (.subcImm dest imm) := ⟨rfl, rfl, rfl, rfl, rfl, rfl⟩
theorem andReg (dest src : RegIx) : Statement (.andReg dest src) := ⟨rfl, rfl, rfl, rfl, rfl, rfl⟩
theorem andImm (dest : RegIx) (imm : Word) : Statement (.andImm dest imm) := ⟨rfl, rfl, rfl, rfl, rfl, rfl⟩
theorem orReg (dest src : RegIx) : Statement (.orReg dest src) := ⟨rfl, rfl, rfl, rfl, rfl, rfl⟩
theorem orImm (dest : RegIx) (imm : Word) : Statement (.orImm dest imm) := ⟨rfl, rfl, rfl, rfl, rfl, rfl⟩
theorem xorReg (dest src : RegIx) : Statement (.xorReg dest src) := ⟨rfl, rfl, rfl, rfl, rfl, rfl⟩
theorem xorImm (dest : RegIx) (imm : Word) : Statement (.xorImm dest imm) := ⟨rfl, rfl, rfl, rfl, rfl, rfl⟩
theorem notReg (dest : RegIx) : Statement (.notReg dest) := ⟨rfl, rfl, rfl, rfl, rfl, rfl⟩
theorem shlReg (dest src : RegIx) : Statement (.shlReg dest src) := ⟨rfl, rfl, rfl, rfl, rfl, rfl⟩
theorem shlImm (dest : RegIx) (imm : Word) : Statement (.shlImm dest imm) := ⟨rfl, rfl, rfl, rfl, rfl, rfl⟩
theorem shrReg (dest src : RegIx) : Statement (.shrReg dest src) := ⟨rfl, rfl, rfl, rfl, rfl, rfl⟩
theorem shrImm (dest : RegIx) (imm : Word) : Statement (.shrImm dest imm) := ⟨rfl, rfl, rfl, rfl, rfl, rfl⟩
theorem sarReg (dest src : RegIx) : Statement (.sarReg dest src) := ⟨rfl, rfl, rfl, rfl, rfl, rfl⟩
theorem sarImm (dest : RegIx) (imm : Word) : Statement (.sarImm dest imm) := ⟨rfl, rfl, rfl, rfl, rfl, rfl⟩
theorem rolReg (dest src : RegIx) : Statement (.rolReg dest src) := ⟨rfl, rfl, rfl, rfl, rfl, rfl⟩
theorem rolImm (dest : RegIx) (imm : Word) : Statement (.rolImm dest imm) := ⟨rfl, rfl, rfl, rfl, rfl, rfl⟩
theorem rorReg (dest src : RegIx) : Statement (.rorReg dest src) := ⟨rfl, rfl, rfl, rfl, rfl, rfl⟩
theorem rorImm (dest : RegIx) (imm : Word) : Statement (.rorImm dest imm) := ⟨rfl, rfl, rfl, rfl, rfl, rfl⟩
theorem cmpReg (dest src : RegIx) : Statement (.cmpReg dest src) := ⟨rfl, rfl, rfl, rfl, rfl, rfl⟩
theorem cmpImm (dest : RegIx) (imm : Word) : Statement (.cmpImm dest imm) := ⟨rfl, rfl, rfl, rfl, rfl, rfl⟩
theorem jmp (addr : Half) : Statement (.jmp addr) := ⟨rfl, rfl, rfl, rfl, rfl, rfl⟩
theorem jz (addr : Half) : Statement (.jz addr) := ⟨rfl, rfl, rfl, rfl, rfl, rfl⟩
theorem jnz (addr : Half) : Statement (.jnz addr) := ⟨rfl, rfl, rfl, rfl, rfl, rfl⟩
theorem jc (addr : Half) : Statement (.jc addr) := ⟨rfl, rfl, rfl, rfl, rfl, rfl⟩
theorem jnc (addr : Half) : Statement (.jnc addr) := ⟨rfl, rfl, rfl, rfl, rfl, rfl⟩
theorem js (addr : Half) : Statement (.js addr) := ⟨rfl, rfl, rfl, rfl, rfl, rfl⟩
theorem jns (addr : Half) : Statement (.jns addr) := ⟨rfl, rfl, rfl, rfl, rfl, rfl⟩

end Sys2Proof.Laws.RecordFields
end

