-- ==== Sys2Proof/Laws/Step.lean ====
section
/-! SUPPORT. What one step can do, said once. -/

namespace Sys2Proof.Machine

/-- The four ways a step goes: idle, a fetch fault, a decode fault, or the Execute phase of the decoded instruction. -/
theorem step_cases (s : State) :
    (s.halted = true ∧ step s = .next s) ∨
    (s.halted = false ∧ (∃ f, fetchWord s = .error f ∧ step s = raiseFault f s)) ∨
    (s.halted = false ∧ (∃ w e, fetchWord s = .ok w ∧ decode s.params w = .error e ∧
      step s = raiseFault (decodeFault e) (afterFetch w s))) ∨
    (s.halted = false ∧ (∃ w i, fetchWord s = .ok w ∧ decode s.params w = .ok i ∧ step s = exec i (afterFetch w s))) := by
  unfold step
  cases hh : s.halted with
  | true => exact .inl ⟨rfl, rfl⟩
  | false =>
    cases hf : fetchWord s with
    | error f => exact .inr (.inl ⟨rfl, f, rfl, rfl⟩)
    | ok w =>
      cases hd : decode s.params w with
      | error e => exact .inr (.inr (.inl ⟨rfl, w, e, rfl, hd, by simp [hd]⟩))
      | ok i => exact .inr (.inr (.inr ⟨rfl, w, i, rfl, hd, by simp [hd]⟩))

end Sys2Proof.Machine
end

