-- ==== Sys2Proof/Tests/Slice0.lean ====
section
/-! SUPPORT. Tests. Every expected value is the spec's: the words are written out from the layout of spec/30_encoding.md R81, R82 and the numbers of R90, the
one-step results are the vectors of spec/95_test_vectors.md named beside them, and the witnesses meet the hypotheses of the statements. -/

namespace Sys2Proof.Tests

open Sys2Proof Sys2Proof.Machine Sys2Proof.Safety Sys2Proof.Claims

/-! ## Helpers -/

/-- The flags from the five digits Z S C O P of spec/95_test_vectors.md. -/
def zscop (n : Nat) : Flags := ⟨n.testBit 4, n.testBit 3, n.testBit 2, n.testBit 1, n.testBit 0⟩

/-- The start state of spec/95_test_vectors.md section 2: after reset, registers and flags set, the word at address 256. -/
def start (w : Nat) (regs : List (RegIx × Word)) (f : Flags) : State :=
  State.withFetchWord (regs.foldl (fun s p => State.setX s p.1 p.2) { State.reset with pc := 256, flags := f }) 32 w

/-- One register and the flags after one step. -/
def after (w : Nat) (regs : List (RegIx × Word)) (f : Flags) (r : RegIx) : Word × Flags :=
  (State.x (stepped (start w regs f)) r, (stepped (start w regs f)).flags)

/-- `pc` after one step, with no register set. -/
def pcAfter (w : Nat) (f : Flags) : Word := (stepped (start w [] f)).pc

/-- The report of one step. -/
def reportAfter (w : Nat) (regs : List (RegIx × Word)) (f : Flags) : Report := stepReport (start w regs f)

/-! ## WellFormed -/

theorem test_wellFormed_accepts : wellFormed Config.default (.movImm 0 0xFFFF8000#32) = true := by decide

/-- R94: the immediate is no sign-extended 16-bit value. -/
theorem test_wellFormed_refuses_immediate : wellFormed Config.default (.movImm 0 0x8000#32) = false := by decide

/-- R89: without `TIER_D` there is no STC. -/
theorem test_wellFormed_refuses_tierD : wellFormed { Config.default with tierD := false } .stc = false := by decide

/-- R6: an identity that `OPCODE_MAP` does not list has no number. -/
theorem test_wellFormed_refuses_unlisted : wellFormed { Config.default with opcodeMap := opcodesSystem } (.jmp 64) = false := by decide

theorem test_encode_refuses_immediate : encode Config.default (.addImm 0 0x8000#32) = none := by decide

/-- R6: `MEM_SIZE` must be a multiple of 4. -/
theorem test_valid_refuses_size : ({ Config.default with memSize := 262142 } : Config).valid = false := by decide

/-! ## Decode: one word for every constructor -/

theorem test_decode_nop : decode Config.default 0x00000000#32 = .ok (.nop) := by decide

theorem test_decode_halt : decode Config.default 0x01000000#32 = .ok (.halt) := by decide

theorem test_decode_clc : decode Config.default 0x02000000#32 = .ok (.clc) := by decide

theorem test_decode_stc : decode Config.default 0x03000000#32 = .ok (.stc) := by decide

theorem test_decode_movReg : decode Config.default 0x10030006#32 = .ok (.movReg 3 6) := by decide

theorem test_decode_movImm : decode Config.default 0x11068000#32 = .ok (.movImm 6 0xFFFF8000#32) := by decide

theorem test_decode_load : decode Config.default 0x12040004#32 = .ok (.load 4 4) := by decide

theorem test_decode_store : decode Config.default 0x13010007#32 = .ok (.store 1 7) := by decide

theorem test_decode_addReg : decode Config.default 0x20050002#32 = .ok (.addReg 5 2) := by decide

theorem test_decode_addImm : decode Config.default 0x2100FF00#32 = .ok (.addImm 0 0xFFFFFF00#32) := by decide

theorem test_decode_subReg : decode Config.default 0x22070001#32 = .ok (.subReg 7 1) := by decide

theorem test_decode_subImm : decode Config.default 0x23027FFF#32 = .ok (.subImm 2 0x7FFF#32) := by decide

theorem test_decode_mulReg : decode Config.default 0x24080003#32 = .ok (.mulReg 8 3) := by decide

theorem test_decode_mulImm : decode Config.default 0x250300FF#32 = .ok (.mulImm 3 0xFF#32) := by decide

theorem test_decode_divReg : decode Config.default 0x26060000#32 = .ok (.divReg 6 0) := by decide

theorem test_decode_divImm : decode Config.default 0x27048000#32 = .ok (.divImm 4 0xFFFF8000#32) := by decide

theorem test_decode_addcReg : decode Config.default 0x28010007#32 = .ok (.addcReg 1 7) := by decide

theorem test_decode_addcImm : decode Config.default 0x2905FFFF#32 = .ok (.addcImm 5 0xFFFFFFFF#32) := by decide

theorem test_decode_subcReg : decode Config.default 0x2A000008#32 = .ok (.subcReg 0 8) := by decide

theorem test_decode_subcImm : decode Config.default 0x2B07FF00#32 = .ok (.subcImm 7 0xFFFFFF00#32) := by decide

theorem test_decode_andReg : decode Config.default 0x30020005#32 = .ok (.andReg 2 5) := by decide

theorem test_decode_andImm : decode Config.default 0x31087FFF#32 = .ok (.andImm 8 0x7FFF#32) := by decide

theorem test_decode_orReg : decode Config.default 0x32030006#32 = .ok (.orReg 3 6) := by decide

theorem test_decode_orImm : decode Config.default 0x330600FF#32 = .ok (.orImm 6 0xFF#32) := by decide

theorem test_decode_xorReg : decode Config.default 0x34040004#32 = .ok (.xorReg 4 4) := by decide

theorem test_decode_xorImm : decode Config.default 0x35018000#32 = .ok (.xorImm 1 0xFFFF8000#32) := by decide

theorem test_decode_notReg : decode Config.default 0x36050000#32 = .ok (.notReg 5) := by decide

theorem test_decode_shlReg : decode Config.default 0x40000008#32 = .ok (.shlReg 0 8) := by decide

theorem test_decode_shlImm : decode Config.default 0x410700FF#32 = .ok (.shlImm 7 0xFF#32) := by decide

theorem test_decode_shrReg : decode Config.default 0x42020005#32 = .ok (.shrReg 2 5) := by decide

theorem test_decode_shrImm : decode Config.default 0x43088000#32 = .ok (.shrImm 8 0xFFFF8000#32) := by decide

theorem test_decode_sarReg : decode Config.default 0x44030006#32 = .ok (.sarReg 3 6) := by decide

theorem test_decode_sarImm : decode Config.default 0x4506FFFF#32 = .ok (.sarImm 6 0xFFFFFFFF#32) := by decide

theorem test_decode_rolReg : decode Config.default 0x46040004#32 = .ok (.rolReg 4 4) := by decide

theorem test_decode_rolImm : decode Config.default 0x4701FF00#32 = .ok (.rolImm 1 0xFFFFFF00#32) := by decide

theorem test_decode_rorReg : decode Config.default 0x48050002#32 = .ok (.rorReg 5 2) := by decide

theorem test_decode_rorImm : decode Config.default 0x49007FFF#32 = .ok (.rorImm 0 0x7FFF#32) := by decide

theorem test_decode_cmpReg : decode Config.default 0x50070001#32 = .ok (.cmpReg 7 1) := by decide

theorem test_decode_cmpImm : decode Config.default 0x510200FF#32 = .ok (.cmpImm 2 0xFF#32) := by decide

theorem test_decode_jmp : decode Config.default 0x60001234#32 = .ok (.jmp 4660#16) := by decide

theorem test_decode_jz : decode Config.default 0x61000001#32 = .ok (.jz 1#16) := by decide

theorem test_decode_jnz : decode Config.default 0x6200FFFF#32 = .ok (.jnz 65535#16) := by decide

theorem test_decode_jc : decode Config.default 0x63008000#32 = .ok (.jc 32768#16) := by decide

theorem test_decode_jnc : decode Config.default 0x64000040#32 = .ok (.jnc 64#16) := by decide

theorem test_decode_js : decode Config.default 0x65000002#32 = .ok (.js 2#16) := by decide

theorem test_decode_jns : decode Config.default 0x6600FFFC#32 = .ok (.jns 65532#16) := by decide

/-- R52: the bytes of `MOV R0,#-1` in ascending address order, with one byte left over. -/
theorem test_decodeBytes : decodeBytes Config.default [0xFF#8, 0xFF#8, 0x00#8, 0x11#8, 0xAA#8] = some (.ok (.movImm 0 0xFFFFFFFF#32, [0xAA#8])) := by
  decide

/-! ## One step -/

/-- V1: `NOP`. -/
theorem test_nop_V1 : after 0x00000000 [] (zscop 0b10101) 0 = (0x0#32, zscop 0b10101) := by decide

/-- V3: `CLC`. -/
theorem test_clc_V3 : after 0x02000000 [] (zscop 0b11111) 0 = (0x0#32, zscop 0b11011) := by decide

/-- V5: `STC`. -/
theorem test_stc_V5 : after 0x03000000 [] (zscop 0b00000) 0 = (0x0#32, zscop 0b00100) := by decide

/-- V7: `MOV R1,R8`. -/
theorem test_movReg_V7 : after 0x10010008 [] (zscop 0b00000) 1 = (0x0003f000#32, zscop 0b00000) := by decide

/-- V8: `MOV R8,R1`. -/
theorem test_movReg_V8 : after 0x10080001 [(1, 0x00001000#32)] (zscop 0b00000) 8 = (0x00001000#32, zscop 0b00000) := by decide

/-- V10: `MOV R0,#-1`. -/
theorem test_movImm_V10 : after 0x1100ffff [] (zscop 0b11111) 0 = (0xffffffff#32, zscop 0b11111) := by decide

/-- V13: `MOV R0,#0`. -/
theorem test_movImm_V13 : after 0x11000000 [(0, 0x00000005#32)] (zscop 0b00000) 0 = (0x00000000#32, zscop 0b00000) := by decide

/-- V16: `LOAD R2,[R1]`. -/
theorem test_load_V16 : reportAfter 0x12020001 [(1, 0x000007d2#32), (2, 0x00000007#32)] (zscop 0b00000) = .fault (.misaligned 0x7d2) := by decide

/-- V19: `LOAD R2,[R1]`. -/
theorem test_load_V19 : reportAfter 0x12020001 [(1, 0xfffffffe#32), (2, 0x00000007#32)] (zscop 0b00000) = .fault (.outOfRange 0xfffffffe) := by decide

/-- V22: `STORE [R1],R2`. -/
theorem test_store_V22 : reportAfter 0x13010002 [(1, 0x000007d1#32), (2, 0x00000009#32)] (zscop 0b00000) = .fault (.misaligned 0x7d1) := by decide

/-- V23: `STORE [R1],R2`. -/
theorem test_store_V23 : reportAfter 0x13010002 [(1, 0x0003fffe#32), (2, 0x00000009#32)] (zscop 0b00000) = .fault (.outOfRange 0x3fffe) := by decide

/-- V26: `ADD R0,R1`. -/
theorem test_addReg_V26 : after 0x20000001 [(0, 0x7fffffff#32), (1, 0x00000001#32)] (zscop 0b00000) 0 = (0x80000000#32, zscop 0b01011) := by decide

/-- V27: `ADD R0,R1`. -/
theorem test_addReg_V27 : after 0x20000001 [(0, 0x80000000#32), (1, 0x80000000#32)] (zscop 0b00000) 0 = (0x00000000#32, zscop 0b10111) := by decide

/-- V30: `ADD R0,#-1`. -/
theorem test_addImm_V30 : after 0x2100ffff [(0, 0x00000005#32)] (zscop 0b00000) 0 = (0x00000004#32, zscop 0b00100) := by decide

/-- V32: `SUB R0,R1`. -/
theorem test_subReg_V32 : after 0x22000001 [(0, 0x00000000#32), (1, 0x00000001#32)] (zscop 0b00000) 0 = (0xffffffff#32, zscop 0b01101) := by decide

/-- V35: `SUB R0,R1`. -/
theorem test_subReg_V35 : after 0x22000001 [(0, 0x7fffffff#32), (1, 0xffffffff#32)] (zscop 0b00000) 0 = (0x80000000#32, zscop 0b01111) := by decide

/-- V37: `SUB R0,#-1`. -/
theorem test_subImm_V37 : after 0x2300ffff [(0, 0x00000000#32)] (zscop 0b00000) 0 = (0x00000001#32, zscop 0b00100) := by decide

/-- V39: `MUL R0,R1`. -/
theorem test_mulReg_V39 : after 0x24000001 [(0, 0x00010000#32), (1, 0x00010000#32)] (zscop 0b00000) 0 = (0x00000000#32, zscop 0b10101) := by decide

/-- V40: `MUL R0,R1`. -/
theorem test_mulReg_V40 : after 0x24000001 [(0, 0xffffffff#32), (1, 0xffffffff#32)] (zscop 0b00000) 0 = (0x00000001#32, zscop 0b00100) := by decide

/-- V43: `MUL R0,#-1`. -/
theorem test_mulImm_V43 : after 0x2500ffff [(0, 0x00000005#32)] (zscop 0b00000) 0 = (0xfffffffb#32, zscop 0b01100) := by decide

/-- V47: `DIV R0,R1`. -/
theorem test_divReg_V47 : after 0x26000001 [(0, 0xfffffffa#32), (1, 0x00000002#32)] (zscop 0b00000) 0 = (0x7ffffffd#32, zscop 0b00000) := by decide

/-- V50: `DIV R0,R1`. -/
theorem test_divReg_V50 : reportAfter 0x26000001 [(0, 0x00000005#32), (1, 0x00000000#32)] (zscop 0b10101) = .fault .divisionByZero := by decide

/-- V53: `DIV R0,#-1`. -/
theorem test_divImm_V53 : after 0x2700ffff [(0, 0xffffffff#32)] (zscop 0b00000) 0 = (0x00000001#32, zscop 0b00000) := by decide

/-- V52: `DIV R0,#0`. -/
theorem test_divImm_V52 : reportAfter 0x27000000 [(0, 0x00000009#32)] (zscop 0b00000) = .fault .divisionByZero := by decide

/-- V59: `ADDC R0,R1`. -/
theorem test_addcReg_V59 : after 0x28000001 [(0, 0xffffffff#32), (1, 0x00000000#32)] (zscop 0b00110) 0 = (0x00000000#32, zscop 0b10111) := by decide

/-- V60: `ADDC R0,R1`. -/
theorem test_addcReg_V60 : after 0x28000001 [(0, 0x7fffffff#32), (1, 0x00000001#32)] (zscop 0b00000) 0 = (0x80000000#32, zscop 0b01001) := by decide

/-- V61: `ADDC R0,#0`. -/
theorem test_addcImm_V61 : after 0x29000000 [(0, 0xffffffff#32)] (zscop 0b00100) 0 = (0x00000000#32, zscop 0b10101) := by decide

/-- V66: `SUBC R0,R1`. -/
theorem test_subcReg_V66 : after 0x2a000001 [(0, 0x00000005#32), (1, 0x00000005#32)] (zscop 0b00110) 0 = (0xffffffff#32, zscop 0b01111) := by decide

/-- V65: `SUBC R0,R1`. -/
theorem test_subcReg_V65 : after 0x2a000001 [(0, 0x00000000#32), (1, 0xffffffff#32)] (zscop 0b00100) 0 = (0x00000000#32, zscop 0b10101) := by decide

/-- V67: `SUBC R0,#0`. -/
theorem test_subcImm_V67 : after 0x2b000000 [(0, 0x00000000#32)] (zscop 0b00100) 0 = (0xffffffff#32, zscop 0b01101) := by decide

/-- V69: `AND R0,R1`. -/
theorem test_andReg_V69 : after 0x30000001 [(0, 0xf0f0f0f0#32), (1, 0xff00ff00#32)] (zscop 0b00110) 0 = (0xf000f000#32, zscop 0b01001) := by decide

/-- V72: `AND R0,#-256`. -/
theorem test_andImm_V72 : after 0x3100ff00 [(0, 0x12345678#32)] (zscop 0b00000) 0 = (0x12345600#32, zscop 0b00001) := by decide

/-- V73: `OR R0,R1`. -/
theorem test_orReg_V73 : after 0x32000001 [(0, 0x0000f000#32), (1, 0x0000000f#32)] (zscop 0b00000) 0 = (0x0000f00f#32, zscop 0b00001) := by decide

/-- V75: `OR R0,#-32768`. -/
theorem test_orImm_V75 : after 0x33008000 [(0, 0x12340000#32)] (zscop 0b00000) 0 = (0xffff8000#32, zscop 0b01001) := by decide

/-- V77: `XOR R0,R1`. -/
theorem test_xorReg_V77 : after 0x34000001 [(0, 0xffff0000#32), (1, 0x0ff00ff0#32)] (zscop 0b00000) 0 = (0xf00f0ff0#32, zscop 0b01001) := by decide

/-- V78: `XOR R0,R0`. -/
theorem test_xorReg_V78 : after 0x34000000 [(0, 0xabcdef01#32)] (zscop 0b01110) 0 = (0x00000000#32, zscop 0b10001) := by decide

/-- V79: `XOR R0,#-1`. -/
theorem test_xorImm_V79 : after 0x3500ffff [(0, 0x0f0f0f0f#32)] (zscop 0b00000) 0 = (0xf0f0f0f0#32, zscop 0b01001) := by decide

/-- V81: `NOT R5`. -/
theorem test_notReg_V81 : after 0x36050000 [(5, 0x00000000#32)] (zscop 0b00110) 5 = (0xffffffff#32, zscop 0b01001) := by decide

/-- V83: `NOT R8`. -/
theorem test_notReg_V83 : after 0x36080000 [] (zscop 0b00000) 8 = (0xfffc0fff#32, zscop 0b01001) := by decide

/-- V84: `SHL R0,R1`. -/
theorem test_shlReg_V84 : after 0x40000001 [(0, 0x80000001#32), (1, 0x00000001#32)] (zscop 0b00000) 0 = (0x00000002#32, zscop 0b00100) := by decide

/-- V87: `SHL R0,R1`. -/
theorem test_shlReg_V87 : after 0x40000001 [(0, 0x80000001#32), (1, 0x00000020#32)] (zscop 0b00110) 0 = (0x80000001#32, zscop 0b01110) := by decide

/-- V90: `SHL R0,#-1`. -/
theorem test_shlImm_V90 : after 0x4100ffff [(0, 0x00000003#32)] (zscop 0b00000) 0 = (0x80000000#32, zscop 0b01101) := by decide

/-- V92: `SHR R0,R1`. -/
theorem test_shrReg_V92 : after 0x42000001 [(0, 0x80000001#32), (1, 0x00000001#32)] (zscop 0b00000) 0 = (0x40000000#32, zscop 0b00101) := by decide

/-- V93: `SHR R0,R1`. -/
theorem test_shrReg_V93 : after 0x42000001 [(0, 0x80000000#32), (1, 0x00000000#32)] (zscop 0b10110) 0 = (0x80000000#32, zscop 0b01111) := by decide

/-- V96: `SHR R0,#32`. -/
theorem test_shrImm_V96 : after 0x43000020 [(0, 0x000000ff#32)] (zscop 0b00100) 0 = (0x000000ff#32, zscop 0b00101) := by decide

/-- V97: `SAR R0,R1`. -/
theorem test_sarReg_V97 : after 0x44000001 [(0, 0x80000001#32), (1, 0x00000001#32)] (zscop 0b00000) 0 = (0xc0000000#32, zscop 0b01101) := by decide

/-- V103: `SAR R0,R1`. -/
theorem test_sarReg_V103 : after 0x44000001 [(0, 0x80000000#32), (1, 0x00000020#32)] (zscop 0b00100) 0 = (0x80000000#32, zscop 0b01101) := by decide

/-- V98: `SAR R0,#2`. -/
theorem test_sarImm_V98 : after 0x45000002 [(0, 0xfffffff0#32)] (zscop 0b00000) 0 = (0xfffffffc#32, zscop 0b01001) := by decide

/-- V104: `ROL R0,R1`. -/
theorem test_rolReg_V104 : after 0x46000001 [(0, 0x80000001#32), (1, 0x00000001#32)] (zscop 0b00000) 0 = (0x00000003#32, zscop 0b00101) := by decide

/-- V105: `ROL R0,R1`. -/
theorem test_rolReg_V105 : after 0x46000001 [(0, 0x00000000#32), (1, 0x00000000#32)] (zscop 0b01111) 0 = (0x00000000#32, zscop 0b01111) := by decide

/-- V106: `ROL R0,#8`. -/
theorem test_rolImm_V106 : after 0x47000008 [(0, 0x12345678#32)] (zscop 0b00000) 0 = (0x34567812#32, zscop 0b00001) := by decide

/-- V110: `ROR R0,R1`. -/
theorem test_rorReg_V110 : after 0x48000001 [(0, 0x80000001#32), (1, 0x00000001#32)] (zscop 0b00000) 0 = (0xc0000000#32, zscop 0b01101) := by decide

/-- V111: `ROR R0,#8`. -/
theorem test_rorImm_V111 : after 0x49000008 [(0, 0x12345678#32)] (zscop 0b00000) 0 = (0x78123456#32, zscop 0b00001) := by decide

/-- V112: `ROR R0,#0`. -/
theorem test_rorImm_V112 : after 0x49000000 [(0, 0x80000000#32)] (zscop 0b10000) 0 = (0x80000000#32, zscop 0b10000) := by decide

/-- V116: `CMP R0,R1`. -/
theorem test_cmpReg_V116 : after 0x50000001 [(0, 0x00000003#32), (1, 0x00000005#32)] (zscop 0b00000) 0 = (0x00000003#32, zscop 0b01100) := by decide

/-- V121: `CMP R0,R0`. -/
theorem test_cmpReg_V121 : after 0x50000000 [(0, 0x0000004d#32)] (zscop 0b01110) 0 = (0x0000004d#32, zscop 0b10001) := by decide

/-- V118: `CMP R0,#1`. -/
theorem test_cmpImm_V118 : after 0x51000001 [(0, 0x80000000#32)] (zscop 0b00000) 0 = (0x80000000#32, zscop 0b00011) := by decide

/-- V119: `CMP R0,#-1`. -/
theorem test_cmpImm_V119 : after 0x5100ffff [(0, 0x00000000#32)] (zscop 0b00000) 0 = (0x00000000#32, zscop 0b00100) := by decide

/-- V122: `JMP 64`. -/
theorem test_jmp_V122 : pcAfter 0x60000040 (zscop 0b00000) = 64#32 := by decide

/-- V137: `JMP 0xFFFF`. -/
theorem test_jmp_V137 : pcAfter 0x6000ffff (zscop 0b00000) = 65535#32 := by decide

/-- V123: `JZ 64`. -/
theorem test_jz_V123 : pcAfter 0x61000040 (zscop 0b10000) = 64#32 := by decide

/-- V124: `JZ 64`. -/
theorem test_jz_V124 : pcAfter 0x61000040 (zscop 0b01111) = 260#32 := by decide

/-- V125: `JNZ 64`. -/
theorem test_jnz_V125 : pcAfter 0x62000040 (zscop 0b01111) = 64#32 := by decide

/-- V126: `JNZ 64`. -/
theorem test_jnz_V126 : pcAfter 0x62000040 (zscop 0b10000) = 260#32 := by decide

/-- V127: `JC 64`. -/
theorem test_jc_V127 : pcAfter 0x63000040 (zscop 0b00100) = 64#32 := by decide

/-- V128: `JC 64`. -/
theorem test_jc_V128 : pcAfter 0x63000040 (zscop 0b11011) = 260#32 := by decide

/-- V129: `JNC 64`. -/
theorem test_jnc_V129 : pcAfter 0x64000040 (zscop 0b11011) = 64#32 := by decide

/-- V130: `JNC 64`. -/
theorem test_jnc_V130 : pcAfter 0x64000040 (zscop 0b00100) = 260#32 := by decide

/-- V131: `JS 64`. -/
theorem test_js_V131 : pcAfter 0x65000040 (zscop 0b01000) = 64#32 := by decide

/-- V132: `JS 64`. -/
theorem test_js_V132 : pcAfter 0x65000040 (zscop 0b10111) = 260#32 := by decide

/-- V133: `JNS 64`. -/
theorem test_jns_V133 : pcAfter 0x66000040 (zscop 0b10111) = 64#32 := by decide

/-- V134: `JNS 64`. -/
theorem test_jns_V134 : pcAfter 0x66000040 (zscop 0b01000) = 260#32 := by decide

/-- V138: `(opcode 0xFF)`. -/
theorem test_decoding_V138 : reportAfter 0xff000000 [] (zscop 0b00000) = .fault (.unknownOpcode 0xff#8) := by decide

/-- V143: `(opcode 0xFF, reg1=9)`. -/
theorem test_decoding_V143 : reportAfter 0xff090009 [] (zscop 0b00000) = .fault (.unknownOpcode 0xff#8) := by decide

/-- V144: `(ADD_REG R0,R1 with operand[15:8]=0xAB)`. -/
theorem test_decoding_V144 : after 0x2000ab01 [(0, 0x00000002#32), (1, 0x00000003#32)] (zscop 0b00000) 0 = (0x00000005#32, zscop 0b00001) := by decide

/-- V149: `(STORE src=200)`. -/
theorem test_decoding_V149 : reportAfter 0x130100c8 [] (zscop 0b00000) = .fault (.invalidRegister 0xc8) := by decide

/-- V150: `(ADD_REG reg1=9, src=10)`. -/
theorem test_decoding_V150 : reportAfter 0x2009000a [] (zscop 0b00000) = .fault (.invalidRegister 0x9) := by decide

/-- V2: `HALT`. -/
theorem test_halt_V2 : (stepped (start 0x01000000 [] (zscop 0b01010))).halted = true ∧
    (stepped (start 0x01000000 [] (zscop 0b01010))).cycleCount = 1 := by decide

/-- V20: `STORE [R1],R2`, byte 2001 of the word 0x11223344. -/
theorem test_store_V20 : Memory.byte (stepped (start 0x13010002 [(1, 0x7d0#32), (2, 0x11223344#32)] (zscop 0))).mem 2001 = 0x33#8 := by decide

/-- `LOAD R2,[R1]` of the word at 256, which is the instruction itself (0x12020001). -/
theorem test_load_itself : after 0x12020001 [(1, 256#32)] (zscop 0) 2 = (0x12020001#32, zscop 0) := by decide

/-- R55: a byte write stores `v[7:0]` of a wider value. -/
theorem test_writeByte_low_bits : (performAll [.writeByte 2001 0x1FF] State.reset).mem = [(2001, 0xFF#8)] := by decide

/-- R55: a value whose low byte is 0x00 leaves no entry. -/
theorem test_writeByte_zero : (performAll [.writeByte 2001 0xAB, .writeByte 2001 0x100] State.reset).mem = [] := by decide

/-- E3: a misaligned `pc`. -/
theorem test_fetch_E3 : stepReport { State.reset with pc := 258 } = .fault (.invalidInstruction 258) := by decide

/-! ## Witnesses: a state and operands that meet the hypotheses of a statement together -/

/-- `ADD R0,R1` about to run. -/
def addState : State := start 0x20000001 [(0, 1#32), (1, 2#32)] (zscop 0)

/-- Register 1 at 0, register 2 at the last word of memory, register 3 one byte further, register 4 at the address after the last
byte, register 5 at 262142, where a word no longer fits and is misaligned too, register 6 at the last misaligned word address. -/
def edges : State :=
  start 0 [(1, 0#32), (2, 262140#32), (3, 262141#32), (4, 262144#32), (5, 262142#32), (6, 262139#32), (7, 1#32)] (zscop 0)

/-- The counts at the ends of the range that the shift routines are specified for. -/
theorem witness_FlagRoutinesFollowTheirRules : (0 < 1 ∧ 1 ≤ 31) ∧ (0 < 31 ∧ 31 ≤ 31) := by decide

theorem witness_AluTestableLawsHold : (0#32).toNat < 32 ∧ (31#32).toNat < 32 ∧
    ∀ r ∈ [aluAnd 1#32 2#32 Flags.clear], r.2.c = false := by decide

theorem witness_LoadCompletes : (indirectAddress 1 edges + 4 ≤ edges.params.memSize ∧ indirectAddress 1 edges % 4 = 0) ∧
    (indirectAddress 2 edges + 4 ≤ edges.params.memSize ∧ indirectAddress 2 edges % 4 = 0) := by decide

theorem witness_StoreCompletes : Memory.wf edges.mem = true ∧ indirectAddress 2 edges + 4 ≤ edges.params.memSize ∧
    indirectAddress 2 edges % 4 = 0 := by decide

theorem witness_DivCompletes : State.x edges 7 ≠ 0#32 ∧ (0xFFFFFFFF#32 : Word) ≠ 0#32 := by decide

theorem witness_ExecuteFaultsAreTaken : State.x edges 1 = 0#32 ∧ edges.params.memSize < indirectAddress 3 edges + 4 ∧
    edges.params.memSize < indirectAddress 4 edges + 4 ∧ edges.params.memSize < indirectAddress 5 edges + 4 := by decide

theorem witness_StepRunsDecodedInstruction : addState.halted = false ∧ Fetchable addState ∧
    decode addState.params (Memory.word addState.mem addState.pc.toNat) = .ok (.addReg 0 1) :=
  ⟨by decide, ⟨by decide, by decide⟩, by decide⟩

theorem witness_HaltedStepIsIdle : ({ State.reset with halted := true } : State).halted = true := by decide

/-- One state for each clause: `pc` at the first address that cannot be fetched, an unknown opcode, register field 9. -/
theorem witness_FetchAndDecodeFaultsAreTaken :
    (¬ Fetchable { State.reset with pc := 262141 } ∧ ¬ Fetchable { State.reset with pc := 262144 } ∧ ¬ Fetchable { State.reset with pc := 1 }) ∧
    (Fetchable (start 0x04000000 [] (zscop 0)) ∧ decode Config.default 0x04000000#32 = .error (.unknownOpcode 4#8)) ∧
    (Fetchable (start 0x20090001 [] (zscop 0)) ∧ decode Config.default 0x20090001#32 = .error (.invalidRegister 9#8)) :=
  ⟨⟨fun h => absurd h.1 (by decide), fun h => absurd h.1 (by decide), fun h => absurd h.2 (by decide)⟩,
    ⟨⟨by decide, by decide⟩, by decide⟩, ⟨by decide, by decide⟩, by decide⟩

/-- The clauses at their boundary: an opcode that is no key; `reg1` = 9; `reg1` = 8 with `reg2` = 9. -/
theorem witness_FaultsAreReportedInOrder :
    (Fetchable (start 0x67090009 [] (zscop 0)) ∧
      State.reset.params.lookup (opcodeField (Memory.word (start 0x67090009 [] (zscop 0)).mem 256)) = none) ∧
    (Fetchable (start 0x20090009 [] (zscop 0)) ∧ Config.default.lookup (opcodeField 0x20090009#32) = some .addReg ∧
      Opcode.addReg.shape ≠ .noOperands ∧ Opcode.addReg.shape ≠ .jump ∧ 8 < (reg1Field 0x20090009#32).toNat) ∧
    (Fetchable (start 0x20080009 [] (zscop 0)) ∧ Config.default.lookup (opcodeField 0x20080009#32) = some .addReg ∧
      Opcode.addReg.shape = .regReg ∧ (reg1Field 0x20080009#32).toNat ≤ 8 ∧ 8 < (reg2Field 0x20080009#32).toNat) :=
  ⟨⟨⟨by decide, by decide⟩, by decide⟩, ⟨⟨by decide, by decide⟩, by decide⟩, ⟨by decide, by decide⟩, by decide⟩

/-- A fetch fault and an Execute fault, so that both rows of the post-fault state occur. -/
theorem witness_FaultingStepWritesNothing :
    (State.reset.halted = false ∧ step { State.reset with pc := 2 } = .next (stepped { State.reset with pc := 2 }) ∧
      report { State.reset with pc := 2 } (stepped { State.reset with pc := 2 }) = .fault (.invalidInstruction 2)) ∧
    (step (start 0x26000001 [(0, 5#32)] (zscop 0)) = .next (stepped (start 0x26000001 [(0, 5#32)] (zscop 0))) ∧
      report (start 0x26000001 [(0, 5#32)] (zscop 0)) (stepped (start 0x26000001 [(0, 5#32)] (zscop 0))) = .fault .divisionByZero) :=
  ⟨⟨rfl, rfl, by decide⟩, rfl, by decide⟩

/-- Each of the three reports occurs. -/
theorem witness_CycleCountCountsExecutedSteps : step addState = .next (stepped addState) ∧
    stepReport addState = .executed ∧ stepReport { addState with halted := true } = .idle ∧
    stepReport { addState with pc := 2 } = .fault (.invalidInstruction 2) := ⟨rfl, by decide, by decide, by decide⟩

theorem witness_CleanRunCountsEveryStep : SafeFor 1 addState ∧
    (performAll (List.replicate 1 .step) addState).halted = false := by
  have h : stepReport addState = .executed := by decide
  exact ⟨⟨fun f => by rw [h]; exact Report.noConfusion, trivial⟩, by decide⟩

/-- A step that sets `halted`, a halted core, and an operation that is no step, run or reset. -/
theorem witness_HaltedIsSetOnlyByHalt :
    construct Config.default [] = some State.reset ∧
    ((start 0x01000000 [] (zscop 0)).halted = false ∧
      step (start 0x01000000 [] (zscop 0)) = .next (stepped (start 0x01000000 [] (zscop 0))) ∧
      (stepped (start 0x01000000 [] (zscop 0))).halted = true) ∧
    HostOp.getState ≠ .reset ∧ HostOp.getState ≠ .step ∧ ∀ n, HostOp.getState ≠ .run n :=
  ⟨rfl, ⟨rfl, rfl, by decide⟩, HostOp.noConfusion, HostOp.noConfusion, fun _ => HostOp.noConfusion⟩

theorem witness_HaltedCoreStaysStopped : HaltedStopped { addState with halted := true } ∧
    step { addState with halted := true } = .next { addState with halted := true } := ⟨fun _ => rfl, rfl⟩

theorem legal_addState : Legal addState := ⟨by decide, by decide, by decide⟩

theorem witness_StepKeepsLegalState : Legal addState ∧ step addState = .next (stepped addState) := ⟨legal_addState, rfl⟩

theorem witness_HostOperationsKeepLegalState : construct Config.default [1#8, 0#8, 2#8] ≠ none ∧ Legal addState :=
  ⟨by decide, legal_addState⟩

theorem witness_StepWritesOnlyTheDestination : step addState = .next (stepped addState) ∧
    State.x (stepped addState) 0 ≠ State.x addState 0 := ⟨rfl, by decide⟩

/-- A step that changes memory: `STORE [R1],R2`. -/
theorem witness_OnlyStoreChangesMemory :
    step (start 0x13010002 [(1, 0x7d0#32), (2, 7#32)] (zscop 0)) = .next (stepped (start 0x13010002 [(1, 0x7d0#32), (2, 7#32)] (zscop 0))) ∧
    Memory.byte (stepped (start 0x13010002 [(1, 0x7d0#32), (2, 7#32)] (zscop 0))).mem 2000 ≠ 0#8 := ⟨rfl, by decide⟩

theorem witness_PcAdvancesByFourOrJumps : addState.halted = false ∧ Fetchable addState ∧ step addState = .next (stepped addState) :=
  ⟨rfl, ⟨by decide, by decide⟩, rfl⟩

/-- Two different states that agree on what a step reads. -/
theorem witness_StepReadsNoEngineStateNorOverflowNorParity :
    AgreeForStep addState { addState with ir := 5, running := true, cycleCount := 9, flags := zscop 0b00011 } ∧
    step addState = .next (stepped addState) := ⟨⟨rfl, rfl, rfl, rfl, rfl, rfl, rfl, rfl⟩, rfl⟩

/-- `JZ 64` with Z = 1, and with Z = 0. -/
theorem witness_ConditionalJumpsFollowTheirFlag :
    (Fetchable (start 0x61000040 [] (zscop 0b10000)) ∧ (start 0x61000040 [] (zscop 0b10000)).flags.z = true ∧
      decode Config.default (Memory.word (start 0x61000040 [] (zscop 0b10000)).mem 256) = .ok (.jz 64#16)) ∧
    (start 0x61000040 [] (zscop 0)).flags.z = false := ⟨⟨⟨by decide, by decide⟩, by decide, by decide⟩, by decide⟩

theorem witness_StepRaisesNoHostFault : step addState = .next (stepped addState) ∧
    State.reset.params.memSize < 262141 + [1#8, 2#8, 3#8, 4#8].length ∧ "z" ∉ ["Z", "S", "C", "O", "P"] :=
  ⟨rfl, by decide, by decide⟩

theorem witness_WordWriteReadsBack : Memory.wf addState.mem = true ∧ 262140 + 4 ≤ addState.params.memSize ∧ 262140 % 4 = 0 := by decide

/-- Register 6 holds 262139, the last address of a misaligned word that fits; the fetch clause at 262138 and the byte clause at 262143. -/
theorem witness_MisalignedWordAccessFaults :
    (indirectAddress 6 edges + 4 ≤ edges.params.memSize ∧ indirectAddress 6 edges % 4 ≠ 0) ∧
    (({ edges with pc := 262138 } : State).halted = false ∧ (262138#32).toNat + 4 ≤ edges.params.memSize ∧ (262138#32).toNat % 4 ≠ 0) ∧
    262143 < edges.params.memSize := by decide

theorem witness_ByteAccessorsFollowTheirRules : edges.params.memSize ≤ 262144 ∧ 262143 < edges.params.memSize ∧
    Memory.wf edges.mem = true := by decide

theorem witness_WordsAreLittleEndian : Memory.wf addState.mem = true ∧ 3 < 4 := by decide

theorem witness_CanonicalMemoriesAreEqualWhenTheyReadAlike : Memory.wf [(3, 1#8)] = true ∧
    ∀ a, Memory.byte [(3, 1#8)] a = Memory.byte (Memory.setByte [] 3 1#8) a := ⟨by decide, fun _ => rfl⟩

/-- `STORE [R1],R2` about to store HALT over the word that `pc` names. -/
def overwrite : State := start 0 [(1, 256#32), (2, 0x01000000#32)] (zscop 0)

theorem witness_StoreIsSeenByTheNextFetch : Legal overwrite ∧ overwrite.halted = false ∧ Fetchable overwrite ∧
    indirectAddress 1 overwrite = overwrite.pc.toNat ∧ decode overwrite.params (State.x overwrite 2) = .ok .halt :=
  ⟨⟨by decide, by decide, by decide⟩, rfl, ⟨by decide, by decide⟩, by decide, by decide⟩

/-- SP at its reset value, and SP at the two ends of its range. -/
theorem witness_PushThenPopRestores : (3 : RegIx) ≠ spIx ∧ Memory.wf State.reset.mem = true ∧
    (4 ≤ (State.sp State.reset).toNat ∧ (State.sp State.reset).toNat ≤ State.reset.params.memSize ∧ (State.sp State.reset).toNat % 4 = 0) ∧
    (State.sp (start 0 [(8, 4#32)] (zscop 0))).toNat = 4 ∧
    (State.sp (start 0 [(8, 262144#32)] (zscop 0))).toNat = State.reset.params.memSize := by decide

theorem witness_ResetReturnsToConstruction : construct Config.default [] = some State.reset ∧ (stepped State.reset).params = Config.default :=
  ⟨rfl, rfl⟩

theorem witness_ConstructionLeavesTheListedValues : Config.default.valid = true ∧ (0 : RegIx) ≠ spIx := by decide

theorem witness_LoadProgramCopiesAndSetsPc : 262140 + [0#8, 0#8, 0#8, 1#8].length ≤ State.reset.params.memSize ∧
    Memory.wf State.reset.mem = true := by decide

/-- A halted core, and the three ends of a run: HALT, a fault, the cap. -/
theorem witness_RunEndsInOneOfThreeWays : ({ addState with halted := true } : State).halted = true ∧ addState.halted = false ∧
    runEnd (run 2 (start 0x01000000 [] (zscop 0))) = .halted ∧
    runEnd (run 2 (start 0x04000000 [] (zscop 0))) = .fault (.unknownOpcode 4#8) ∧ runEnd (run 1 addState) = .capped := by decide

theorem witness_RegisterPortReachesNineRegistersAndThreeMore :
    (8 < 9 ∧ 9 ≠ 0x10 ∧ 9 ≠ 0x11 ∧ 9 ≠ 0x12) ∧ (8 < 0x13 ∧ 0x13 ≠ 0x10 ∧ 0x13 ≠ 0x11 ∧ 0x13 ≠ 0x12) := by decide

theorem witness_EncodeThenDecodeIsIdentity : Config.default.valid = true ∧
    wellFormed Config.default (.movImm 8 0xFFFF8000#32) = true ∧ wellFormed Config.default (.movImm 8 0x7FFF#32) = true := by decide

theorem witness_DecodeThenEncodeIsCanonical : Config.default.valid = true ∧
    decode Config.default 0x2000AB01#32 = .ok (.addReg 0 1) ∧ canonical .addReg 0x20000001#32 = 0x20000001#32 := by decide

/-- V144's word and its canonical word. -/
theorem witness_DecodeIgnoresUnreadBits : Config.default.lookup (opcodeField 0x2000AB01#32) = some .addReg ∧
    canonical .addReg 0x2000AB01#32 = canonical .addReg 0x20000001#32 := by decide

theorem witness_OpcodesOutsideTheMapAreUnknown : Config.default.lookup (opcodeField 0x67000000#32) = none ∧
    ({ Config.default with tierD := false } : Config).valid = true ∧ Opcode.stc.tier = .d ∧
    (3#8, Opcode.stc) ∈ Config.default.opcodeMap ∧ opcodeField 0x03000000#32 = 3#8 := by decide

theorem witness_ImmediatesAreSignExtended : (0x8000#16).msb = true ∧ (0x7FFF#16).msb = false ∧
    decode Config.default 0x21008000#32 = .ok (.addImm 0 0xFFFF8000#32) ∧ (Instr.addImm 0 0xFFFF8000#32).opcode.shape = .regImm := by decide

theorem witness_AssembledBytesDecodeToTheProgram : Config.default.valid = true ∧
    encodeProgram Config.default [.movImm 0 0xFFFFFFFF#32, .halt] = some [0xFF#8, 0xFF#8, 0x00#8, 0x11#8, 0x00#8, 0x00#8, 0x00#8, 0x01#8] := by
  decide


end Sys2Proof.Tests
end

section
/-! PROOFS. What the Execute phase and the host operations can do to the engine state, and the life of `halted` (spec/10_state.md R31). -/

namespace Sys2Proof.Machine

/-! ## The ends of the Execute phase -/

/-- The fields that no instruction but HALT writes before it retires. -/
structure KeepsEngine (s u : State) : Prop where
  ir : u.ir = s.ir
  running : u.running = s.running
  halted : u.halted = s.halted
  cycleCount : u.cycleCount = s.cycleCount
  params : u.params = s.params

/-- A handler entered with `s` takes a fault there, or retires a state whose engine fields are those of `s`. -/
def EndsFrom (s : State) (r : Result) : Prop :=
  (∃ f, r = raiseFault f s) ∨ ∃ u, KeepsEngine s u ∧ r = retire u

theorem KeepsEngine.refl (s : State) : KeepsEngine s s := ⟨rfl, rfl, rfl, rfl, rfl⟩

theorem KeepsEngine.setX (s : State) (d : RegIx) (v : Word) : KeepsEngine s (State.setX s d v) :=
  ⟨setX_ir .., setX_running .., setX_halted .., setX_cycleCount .., setX_params ..⟩

theorem KeepsEngine.setFlags {s u : State} (h : KeepsEngine s u) (f : Flags) : KeepsEngine s (State.setFlags u f) :=
  ⟨h.ir, h.running, h.halted, h.cycleCount, h.params⟩

theorem KeepsEngine.setPc (s : State) (target : Word) : KeepsEngine s (State.setPc s target) :=
  ⟨setPc_ir .., setPc_running .., setPc_halted .., setPc_cycleCount .., setPc_params ..⟩

theorem EndsFrom.fault (f : Fault) (s : State) : EndsFrom s (raiseFault f s) := .inl ⟨f, rfl⟩

theorem EndsFrom.retire {s u : State} (h : KeepsEngine s u) : EndsFrom s (retire u) := .inr ⟨u, h, rfl⟩

theorem binaryOp_endsFrom (op : Word → Word → Flags → Word × Flags) (dest : RegIx) (b : Word) (s : State) :
    EndsFrom s (binaryOp op dest b s) :=
  .retire ((KeepsEngine.setX s dest _).setFlags _)

theorem divideOp_endsFrom (dest : RegIx) (b : Word) (s : State) : EndsFrom s (divideOp dest b s) := by
  unfold divideOp
  split
  · exact .fault _ s
  · exact .retire ((KeepsEngine.setX s dest _).setFlags _)

theorem compareOp_endsFrom (dest : RegIx) (b : Word) (s : State) : EndsFrom s (compareOp dest b s) :=
  .retire ((KeepsEngine.refl s).setFlags _)

theorem jumpIf_endsFrom (taken : Bool) (addr : Half) (s : State) : EndsFrom s (jumpIf taken addr s) := by
  cases taken with
  | false => exact .retire (.refl s)
  | true => exact .retire (.setPc s _)

theorem execLoad_endsFrom (dest base : RegIx) (s : State) : EndsFrom s (execLoad dest base s) := by
  unfold execLoad
  split
  · exact .fault _ s
  · exact .retire (.setX s dest _)

theorem execStore_endsFrom (base src : RegIx) (s : State) : EndsFrom s (execStore base src s) := by
  unfold execStore
  split
  · exact .fault _ s
  next u hwrite =>
    obtain ⟨-, rfl⟩ := (writeWord_ok ..).mp hwrite
    exact .retire ⟨rfl, rfl, rfl, rfl, rfl⟩

/-- Every instruction but HALT ends in one of the two ways, by the shape of its handler (R124). -/
theorem exec_endsFrom {i : Instr} (hi : i ≠ .halt) (s : State) : EndsFrom s (exec i s) := by
  cases i with
  | halt => exact absurd rfl hi
  | nop => exact .retire (.refl s)
  | clc | stc => exact .retire ((KeepsEngine.refl s).setFlags _)
  | movReg dest | movImm dest => exact .retire (.setX s dest _)
  | load dest base => exact execLoad_endsFrom dest base s
  | store base src => exact execStore_endsFrom base src s
  | addReg | addImm | subReg | subImm | mulReg | mulImm | addcReg | addcImm | subcReg | subcImm
  | andReg | andImm | orReg | orImm | xorReg | xorImm
  | shlReg | shlImm | shrReg | shrImm | sarReg | sarImm | rolReg | rolImm | rorReg | rorImm =>
    exact binaryOp_endsFrom ..
  | divReg | divImm => exact divideOp_endsFrom ..
  | notReg dest => exact .retire ((KeepsEngine.setX s dest _).setFlags _)
  | cmpReg | cmpImm => exact compareOp_endsFrom ..
  | jmp | jz | jnz | jc | jnc | js | jns => exact jumpIf_endsFrom ..

/-! ## `halted` through a step -/

theorem raiseFault_halted {f : Fault} {s t : State} (h : raiseFault f s = .next t) : t.halted = s.halted := by
  cases h
  rfl

theorem EndsFrom.halted {s t : State} {r : Result} (hends : EndsFrom s r) (h : r = .next t) : t.halted = s.halted := by
  obtain ⟨f, rfl⟩ | ⟨u, hkeeps, rfl⟩ := hends
  · exact raiseFault_halted h
  · cases h
    exact hkeeps.halted

theorem report_of_not_halted {s t : State} (hs : s.halted = false) (ht : t.faulted = none) : report s t = .executed := by
  simp [report, hs, ht]

theorem step_of_halted {s : State} (h : s.halted = true) : step s = .next s := by
  simp [step, h]

/-- Only an executed HALT sets `halted` (R31): a fault leaves it, and so does every other instruction. -/
theorem step_sets_halted {s t : State} (hs : s.halted = false) (hstep : step s = .next t) (ht : t.halted = true) :
    report s t = .executed ∧ (s.pc.toNat + 4 ≤ s.params.memSize ∧ s.pc.toNat % 4 = 0) ∧
      decode s.params (Memory.word s.mem s.pc.toNat) = .ok .halt := by
  have hchanged : t.halted ≠ s.halted := by simp [hs, ht]
  obtain ⟨hidle, -⟩ | ⟨-, f, -, heq⟩ | ⟨-, w, e, -, -, heq⟩ | ⟨-, w, i, hfetch, hdecode, heq⟩ := step_cases s
  · simp [hs] at hidle
  · exact absurd (raiseFault_halted (heq.symm.trans hstep)) hchanged
  · exact absurd (raiseFault_halted (heq.symm.trans hstep)) hchanged
  · have hexec : exec i (afterFetch w s) = .next t := heq.symm.trans hstep
    obtain ⟨hfetchable, rfl⟩ := (fetchWord_ok s w).mp hfetch
    by_cases hi : i = .halt
    · subst hi
      cases hexec
      exact ⟨report_of_not_halted hs rfl, hfetchable, hdecode⟩
    · exact absurd ((exec_endsFrom hi _).halted hexec) hchanged

/-! ## `halted` through the host operations -/

@[simp] theorem answerWord_fst (s : State) (r : Except Fault Word) : (answerWord s r).1 = s := by
  cases r <;> rfl

@[simp] theorem answerByte_fst (s : State) (r : Except Fault Byte) : (answerByte s r).1 = s := by
  cases r <;> rfl

/-- A host write leaves the state as it was (refused) or the written one. -/
theorem answerWrite_cases (s : State) (r : Except Fault State) :
    (answerWrite s r).1 = s ∨ r = .ok (answerWrite s r).1 := by
  cases r with
  | error => exact .inl rfl
  | ok => exact .inr rfl

theorem answerWrite_halted {s : State} {r : Except Fault State} (h : ∀ t, r = .ok t → t.halted = s.halted) :
    (answerWrite s r).1.halted = s.halted := by
  obtain hsame | hwritten := answerWrite_cases s r
  · rw [hsame]
  · exact h _ hwritten

/-- Everything the register port can write (R326). -/
theorem regSet_cases {index : Nat} {value : Int} {s t : State} (h : regSet index value s = .ok t) :
    (∃ r : RegIx, t = State.setX s r (mask32 value)) ∨ t = State.setPc s (mask32 value) ∨ t = { s with ir := mask32 value } := by
  unfold regSet at h
  split at h
  · cases h
    exact .inl ⟨_, rfl⟩
  split at h
  · cases h
    exact .inr (.inl rfl)
  split at h
  · cases h
    exact .inr (.inr rfl)
  split at h
  · cases h
    exact .inl ⟨spIx, rfl⟩
  · cases h

theorem regSet_halted {index : Nat} {value : Int} {s t : State} (h : regSet index value s = .ok t) :
    t.halted = s.halted := by
  obtain ⟨r, rfl⟩ | rfl | rfl := regSet_cases h <;> rfl

theorem run_of_halted {s : State} (n : Nat) (h : s.halted = true) : run n s = { s with running := true } :=
  runLoop_of_stopped n (by simp [h])

/-- A host operation that neither resets nor steps the core leaves `halted` as it was. -/
theorem perform_halted {op : HostOp} (hreset : op ≠ .reset) (hstep : op ≠ .step) (hrun : ∀ n, op ≠ .run n) (s : State) :
    (perform op s).1.halted = s.halted := by
  cases op with
  | reset => exact absurd rfl hreset
  | step => exact absurd rfl hstep
  | run n => exact absurd rfl (hrun n)
  | getState => rfl
  | regGet | readWord => exact congrArg State.halted (answerWord_fst ..)
  | readByte => exact congrArg State.halted (answerByte_fst ..)
  | regSet => exact answerWrite_halted fun _ h => regSet_halted h
  | loadProgram bytes start =>
    refine answerWrite_halted fun t h => ?_
    obtain ⟨-, rfl⟩ := (loadProgram_ok ..).mp h
    rfl
  | writeByte addr v =>
    refine answerWrite_halted fun t h => ?_
    obtain ⟨-, rfl⟩ := (writeByte_ok ..).mp h
    rfl
  | writeWord addr v =>
    refine answerWrite_halted fun t h => ?_
    obtain ⟨-, rfl⟩ := (writeWord_ok ..).mp h
    rfl

/-- Only reset takes a core out of `halted` (R31). -/
theorem perform_keeps_halted {op : HostOp} {s : State} (hreset : op ≠ .reset) (h : s.halted = true) :
    (perform op s).1.halted = true := by
  by_cases hstep : op = .step
  · subst hstep
    exact (congrArg State.halted (stepped_of_next (step_of_halted h))).trans h
  by_cases hrun : ∃ n, op = .run n
  · obtain ⟨n, rfl⟩ := hrun
    exact (congrArg State.halted (run_of_halted n h)).trans h
  · exact (perform_halted hreset hstep (not_exists.mp hrun) s).trans h

theorem construct_halted {c : Config} {init : List Byte} {s : State} (h : construct c init = some s) : s.halted = false := by
  obtain ⟨-, rfl⟩ := (construct_eq_some c init s).mp h
  rfl

end Sys2Proof.Machine

namespace Sys2Proof.Proofs

open Sys2Proof.Machine

/-- Settles O29: the step clause by the four ways a step goes, the host clauses by the operation. -/
theorem haltedIsSetOnlyByHalt : Obligations.HaltedIsSetOnlyByHalt :=
  ⟨fun _ _ _ h => construct_halted h,
   warmReset_halted,
   fun _ _ hs hstep ht => step_sets_halted hs hstep ht,
   fun _ h => step_of_halted h,
   fun _ _ hreset h => perform_keeps_halted hreset h,
   fun _ s hreset hstep hrun => perform_halted hreset hstep hrun s⟩

end Sys2Proof.Proofs
end

section
/-! PROOFS. A word in memory and its four bytes: byte order (spec/20_memory.md R51) and the round trip of a word write (R59). -/

namespace Sys2Proof

/-- `b3 << 24 | b2 << 16 | b1 << 8 | b0` as a sum (R51): the bytes do not overlap. -/
theorem wordOfBytes_toNat (b0 b1 b2 b3 : Byte) :
    (wordOfBytes b0 b1 b2 b3).toNat = b0.toNat + 2 ^ 8 * b1.toNat + 2 ^ 16 * b2.toNat + 2 ^ 24 * b3.toNat := by
  have append_byte {w : Nat} (x : BitVec w) (b : Byte) : (x ++ b).toNat = x.toNat * 2 ^ 8 + b.toNat := by
    rw [BitVec.toNat_append, ← Nat.shiftLeft_add_eq_or_of_lt b.isLt, Nat.shiftLeft_eq]
  unfold wordOfBytes
  rw [append_byte, append_byte, append_byte]
  omega

/-- Byte `k` of a word is the quotient by `2 ^ (8 * k)`, modulo 2^8 (R53). -/
theorem byteOfWord_eq_ofNat (v : Word) (k : Nat) : byteOfWord v k = BitVec.ofNat 8 (v.toNat / 2 ^ (8 * k)) := by
  rw [← Nat.shiftRight_eq_div_pow]
  rfl

end Sys2Proof

namespace Sys2Proof.Machine

/-- The number a word read gives is made of its four bytes, the lowest address least significant (R51). -/
theorem Memory.word_toNat (m : Memory) (a : Nat) : (Memory.word m a).toNat = Claims.wordAt m a :=
  wordOfBytes_toNat ..

/-- After a word write the byte at `a + k` is byte `k` of the word (R51). -/
theorem Memory.byte_setWord_add {m : Memory} (hm : Memory.wf m = true) (a : Nat) (v : Word) {k : Nat} (hk : k < 4) :
    Memory.byte (Memory.setWord m a v) (a + k) = byteOfWord v k := by
  rw [Memory.byte_setWord hm]
  match k, hk with
  | 0, _ | 1, _ | 2, _ | 3, _ => simp

/-- A written word is read back (R59). -/
theorem Memory.word_setWord {m : Memory} (hm : Memory.wf m = true) (a : Nat) (v : Word) :
    Memory.word (Memory.setWord m a v) a = v := by
  have hbyte (k : Nat) (hk : k < 4) := Memory.byte_setWord_add hm a v hk
  have h0 : Memory.byte (Memory.setWord m a v) a = byteOfWord v 0 := hbyte 0 (by decide)
  rw [Memory.word, h0, hbyte 1 (by decide), hbyte 2 (by decide), hbyte 3 (by decide), wordOfBytes_byteOfWord]

end Sys2Proof.Machine

namespace Sys2Proof.Proofs

open Sys2Proof.Machine

/-- Settles O40: both accessors pass the same check, and the memory gives the written word back. -/
theorem wordWriteReadsBack : Obligations.WordWriteReadsBack := by
  intro s a v hm hfits haligned
  have hcheck : a + 4 ≤ s.params.memSize ∧ a % 4 = 0 := ⟨hfits, haligned⟩
  exact ⟨{ s with mem := Memory.setWord s.mem a v }, (writeWord_ok ..).mpr ⟨hcheck, rfl⟩,
    (readWord_ok ..).mpr ⟨hcheck, (Memory.word_setWord hm a v).symm⟩⟩

/-- Settles O43: the read by the sum of the bytes, the write by the byte it leaves at each of the four addresses. -/
theorem wordsAreLittleEndian : Obligations.WordsAreLittleEndian := fun m a v =>
  ⟨Memory.word_toNat m a, fun hm k hk => by rw [Memory.byte_setWord_add hm a v hk, byteOfWord_eq_ofNat]⟩

end Sys2Proof.Proofs
end

section
/-! PROOFS. What a word that decodes carries, class by class (spec/30_encoding.md R82, R83), and the sign extension of an immediate (R85). -/

namespace Sys2Proof

/-! ## Sign extension -/

theorem sext16_of_msb {v : Half} (h : v.msb = true) : sext16 v = BitVec.setWidth 32 v ||| 0xFFFF0000#32 :=
  if_pos ((BitVec.msb_eq_getLsbD_last v).symm.trans h)

theorem sext16_of_not_msb {v : Half} (h : v.msb = false) : sext16 v = BitVec.setWidth 32 v :=
  if_neg (Bool.eq_false_iff.mp ((BitVec.msb_eq_getLsbD_last v).symm.trans h))

@[simp] theorem sext16_toInt (v : Half) : (sext16 v).toInt = v.toInt := by
  rw [sext16_eq_signExtend, BitVec.toInt_signExtend_of_le (by decide)]

theorem sext16_toInt_bounds (v : Half) : -32768 ≤ (sext16 v).toInt ∧ (sext16 v).toInt ≤ 32767 := by
  rw [sext16_toInt]
  exact ⟨v.le_toInt, Int.le_of_lt_add_one v.toInt_lt⟩

/-- The two ranges of an immediate as a `u32` are the two halves of its signed range. -/
theorem sext16_toNat_ranges (v : Half) : (sext16 v).toNat ≤ 0x7FFF ∨ 0xFFFF8000 ≤ (sext16 v).toNat := by
  obtain ⟨hlow, hhigh⟩ := sext16_toInt_bounds v
  rw [BitVec.toInt_eq_toNat_cond] at hlow hhigh
  omega

/-! ## What decode answers -/

theorem decode_ok {c : Config} {w : Word} {i : Instr} :
    decode c w = .ok i ↔ ∃ op, c.lookup (opcodeField w) = some op ∧ decodeFields op w = .ok i := by
  unfold decode
  cases c.lookup (opcodeField w) <;> simp

theorem decodeTwoRegs_ok {mk : RegIx → RegIx → Instr} {w : Word} {i : Instr} :
    decodeTwoRegs mk w = .ok i ↔
      ∃ d s, checkReg (reg1Field w) = .ok d ∧ checkReg (reg2Field w) = .ok s ∧ i = mk d s := by
  unfold decodeTwoRegs
  cases checkReg (reg1Field w) with
  | error => simp
  | ok => cases checkReg (reg2Field w) <;> simp [eq_comm]

theorem decodeRegImm_ok {mk : RegIx → Word → Instr} {w : Word} {i : Instr} :
    decodeRegImm mk w = .ok i ↔ ∃ d, checkReg (reg1Field w) = .ok d ∧ i = mk d (sext16 (operandField w)) := by
  unfold decodeRegImm
  cases checkReg (reg1Field w) <;> simp [eq_comm]

theorem decodeRegUnary_ok {mk : RegIx → Instr} {w : Word} {i : Instr} :
    decodeRegUnary mk w = .ok i ↔ ∃ d, checkReg (reg1Field w) = .ok d ∧ i = mk d := by
  unfold decodeRegUnary
  cases checkReg (reg1Field w) <;> simp [eq_comm]

/-- The record that the class of `op` reads from the fields of `w` (R82, R83). -/
def ReadsRecord (op : Opcode) (w : Word) (r : Record) : Prop :=
  match op.shape with
  | .noOperands => r = recordNone op
  | .regReg | .load | .store =>
    ∃ d s, checkReg (reg1Field w) = .ok d ∧ checkReg (reg2Field w) = .ok s ∧ r = recordTwoRegs op d s
  | .regImm => ∃ d, checkReg (reg1Field w) = .ok d ∧ r = recordRegImm op d (sext16 (operandField w))
  | .regUnary => ∃ d, checkReg (reg1Field w) = .ok d ∧ r = recordRegUnary op d
  | .jump => r = recordJump op (operandField w)

/-- A decoded instruction is the one its class reads from the fields of the word. -/
theorem decodeFields_readsRecord {op : Opcode} {w : Word} {i : Instr} (h : decodeFields op w = .ok i) :
    ReadsRecord op w i.record := by
  cases op with
  | nop | halt | clc | stc =>
    cases h
    exact rfl
  | movReg | load | store | addReg | subReg | mulReg | divReg | addcReg | subcReg | andReg | orReg | xorReg
  | shlReg | shrReg | sarReg | rolReg | rorReg | cmpReg =>
    obtain ⟨d, s, hd, hs, rfl⟩ := decodeTwoRegs_ok.mp h
    exact ⟨d, s, hd, hs, rfl⟩
  | movImm | addImm | subImm | mulImm | divImm | addcImm | subcImm | andImm | orImm | xorImm
  | shlImm | shrImm | sarImm | rolImm | rorImm | cmpImm =>
    obtain ⟨d, hd, rfl⟩ := decodeRegImm_ok.mp h
    exact ⟨d, hd, rfl⟩
  | notReg =>
    obtain ⟨d, hd, rfl⟩ := decodeRegUnary_ok.mp h
    exact ⟨d, hd, rfl⟩
  | jmp | jz | jnz | jc | jnc | js | jns =>
    cases h
    exact rfl

theorem Instr.record_opcode (i : Instr) : i.record.opcode = i.opcode := by
  cases i <;> rfl

theorem ReadsRecord.opcode {op : Opcode} {w : Word} {r : Record} (h : ReadsRecord op w r) : r.opcode = op := by
  unfold ReadsRecord at h
  cases hop : op.shape with
  | noOperands | jump =>
    simp only [hop] at h
    exact h ▸ rfl
  | regReg | load | store =>
    simp only [hop] at h
    obtain ⟨d, s, -, -, rfl⟩ := h
    rfl
  | regImm | regUnary =>
    simp only [hop] at h
    obtain ⟨d, -, rfl⟩ := h
    rfl

/-- A word that decodes is read by the class of the instruction it decodes to. -/
theorem decode_readsRecord {c : Config} {w : Word} {i : Instr} (h : decode c w = .ok i) :
    ReadsRecord i.opcode w i.record := by
  obtain ⟨op, -, hfields⟩ := decode_ok.mp h
  have hreads := decodeFields_readsRecord hfields
  rwa [← i.record_opcode, hreads.opcode]

theorem ReadsRecord.immediate {op : Opcode} {w : Word} {r : Record} (h : ReadsRecord op w r) (hop : op.shape = .regImm) :
    r.immediate = some (sext16 (operandField w)) := by
  simp only [ReadsRecord, hop] at h
  obtain ⟨d, -, rfl⟩ := h
  rfl

end Sys2Proof

namespace Sys2Proof.Proofs

/-- Settles O57: the numbers by the library's sign extension, the instructions by the record that their class reads. -/
theorem immediatesAreSignExtended : Obligations.ImmediatesAreSignExtended :=
  ⟨fun v => ⟨sext16_of_msb, sext16_of_not_msb, sext16_toInt v, (sext16_toInt_bounds v).1, (sext16_toInt_bounds v).2,
      sext16_toNat_ranges v⟩,
   fun _ _ _ hdecode hshape => (decode_readsRecord hdecode).immediate hshape⟩

end Sys2Proof.Proofs
end

section
/-! PROOFS. How a step of a core that is not halted ends, and what it counts (spec/40_cycle.md R125). -/

namespace Sys2Proof.Machine

/-! ## The two ends of a step that is not idle -/

/-- Every instruction, HALT included, takes a fault where it is entered or retires a state with the count it was entered with. -/
theorem exec_fault_or_retire (i : Instr) (s : State) :
    (∃ f, exec i s = raiseFault f s) ∨ ∃ u, u.cycleCount = s.cycleCount ∧ exec i s = retire u := by
  by_cases hi : i = .halt
  · subst hi
    exact .inr ⟨{ s with halted := true, running := false }, rfl, rfl⟩
  · obtain hfault | ⟨u, hkeeps, hretire⟩ := exec_endsFrom hi s
    · exact .inl hfault
    · exact .inr ⟨u, hkeeps.cycleCount, hretire⟩

/-- A step that is not idle faults or retires, and the count is untouched up to there. -/
theorem step_fault_or_retire {s : State} (hs : s.halted = false) :
    ∃ u, u.cycleCount = s.cycleCount ∧ ((∃ f, step s = raiseFault f u) ∨ step s = retire u) := by
  obtain ⟨hidle, -⟩ | ⟨-, f, -, heq⟩ | ⟨-, w, e, -, -, heq⟩ | ⟨-, w, i, -, -, heq⟩ := step_cases s
  · simp [hs] at hidle
  · exact ⟨s, rfl, .inl ⟨f, heq⟩⟩
  · exact ⟨afterFetch w s, afterFetch_cycleCount .., .inl ⟨decodeFault e, heq⟩⟩
  · obtain ⟨f, hfault⟩ | ⟨u, hcount, hretire⟩ := exec_fault_or_retire i (afterFetch w s)
    · exact ⟨afterFetch w s, afterFetch_cycleCount .., .inl ⟨f, heq.trans hfault⟩⟩
    · exact ⟨u, hcount.trans (afterFetch_cycleCount ..), .inr (heq.trans hretire)⟩

/-! ## The report and the count -/

theorem raiseFault_next {f : Fault} {u t : State} (h : raiseFault f u = .next t) :
    t.faulted = some f ∧ t.cycleCount = u.cycleCount := by
  cases h
  exact ⟨rfl, rfl⟩

theorem retire_next {u t : State} (h : retire u = .next t) : t.faulted = none ∧ t.cycleCount = u.cycleCount + 1 := by
  cases h
  exact ⟨rfl, rfl⟩

theorem report_of_halted {s : State} (t : State) (hs : s.halted = true) : report s t = .idle := by
  simp [report, hs]

theorem report_of_faulted {s t : State} {f : Fault} (hs : s.halted = false) (ht : t.faulted = some f) :
    report s t = .fault f := by
  simp [report, hs, ht]

/-- A step counts 1 where it reports Executed and 0 where it does not (R125). -/
theorem step_cycleCount {s t : State} (hstep : step s = .next t) :
    t.cycleCount = s.cycleCount + if report s t = .executed then 1 else 0 := by
  cases hs : s.halted with
  | true =>
    cases (step_of_halted hs).symm.trans hstep
    simp [report_of_halted s hs]
  | false =>
    obtain ⟨u, hcount, ⟨f, heq⟩ | heq⟩ := step_fault_or_retire hs
    · obtain ⟨hfaulted, hkept⟩ := raiseFault_next (heq.symm.trans hstep)
      simp [report_of_faulted hs hfaulted, hkept, hcount]
    · obtain ⟨hfaulted, hcounted⟩ := retire_next (heq.symm.trans hstep)
      simp [report_of_not_halted hs hfaulted, hcounted, hcount]

end Sys2Proof.Machine

namespace Sys2Proof.Proofs

open Sys2Proof.Machine

/-- Settles O27: the count of a step is read off its report. -/
theorem cycleCountCountsExecutedSteps : Obligations.CycleCountCountsExecutedSteps := by
  intro s t hstep
  have hcount := step_cycleCount hstep
  refine ⟨fun hexecuted => ?_, fun hidle => ?_, fun f hfault => ?_⟩
  · rwa [if_pos hexecuted] at hcount
  · simpa [hidle] using hcount
  · simpa [hfault] using hcount

end Sys2Proof.Proofs
end

section
/-! PROOFS. The ALU (spec/41_alu.md): its flag routines R141 to R149 over the sign bit and the bound 2^32, its results by the library's
operations on words, and the testable properties of R172. -/

namespace Sys2Proof

/-- Bit 31 of a word, which the flag rules read, is its sign bit. -/
theorem getLsbD_31_eq_msb (v : Word) : v.getLsbD 31 = v.msb :=
  (BitVec.msb_eq_getLsbD_last v).symm

/-- `mask32` is reduction modulo 2^32, negative integers included (R7). -/
theorem mask32_toNat (n : Int) : ((mask32 n).toNat : Int) = n % 2 ^ 32 := by
  rw [mask32, BitVec.toNat_ofInt]
  exact Int.toNat_of_nonneg (Int.emod_nonneg n (by decide))

theorem mask32_sub (a b : Word) : mask32 (Int.ofNat a.toNat - Int.ofNat b.toNat) = a - b := by
  apply BitVec.eq_of_toNat_eq
  have hmask := mask32_toNat (Int.ofNat a.toNat - Int.ofNat b.toNat)
  have ha := a.isLt
  have hb := b.isLt
  rw [BitVec.toNat_sub]
  simp only [Int.ofNat_eq_natCast] at hmask ⊢
  omega

/-- Rotating left and then right by the same count gives every bit back. -/
theorem rotateRight_rotateLeft (a : Word) (k : Nat) : (a.rotateLeft k).rotateRight k = a := by
  apply BitVec.eq_of_getLsbD_eq
  intro i hi
  rw [BitVec.getLsbD_rotateRight]
  by_cases hlow : i < 32 - k % 32
  · have hin : k % 32 + i < 32 := by omega
    simp [BitVec.getLsbD_rotateLeft, hlow, hin, hi]
  · have hin : i - (32 - k % 32) < k % 32 := by omega
    have hback : 32 - k % 32 + (i - (32 - k % 32)) = i := by omega
    simp [BitVec.getLsbD_rotateLeft, hlow, hin, hback, hi]

end Sys2Proof

namespace Sys2Proof.Machine

/-! ## The flag routines -/

/-- `arithmetic_update` for ADD over the sign bits (R141); `0xFFFFFFFF < n` on naturals is `2 ^ 32 ≤ n` by definition. -/
theorem addUpdate_eq (a b r : Word) (f : Flags) : addUpdate a b r f = { basicUpdate r f with
    c := decide (2 ^ 32 ≤ a.toNat + b.toNat), o := decide (a.msb = b.msb ∧ r.msb ≠ a.msb) } := by
  simp only [addUpdate, getLsbD_31_eq_msb]
  rfl

/-- `arithmetic_update` for SUB and CMP over the sign bits (R142). -/
theorem subUpdate_eq (a b r : Word) (f : Flags) : subUpdate a b r f = { basicUpdate r f with
    c := decide (a.toNat < b.toNat), o := decide (a.msb ≠ b.msb ∧ r.msb ≠ a.msb) } := by
  simp only [subUpdate, getLsbD_31_eq_msb]

theorem shiftLeftUpdate_zero (a r : Word) (f : Flags) : shiftLeftUpdate a 0 r f = basicUpdate r f :=
  if_pos rfl

theorem shiftLeftUpdate_pos {count : Nat} (h : 0 < count) (a r : Word) (f : Flags) :
    shiftLeftUpdate a count r f = shiftUpdate r (a.getLsbD (32 - count)) f :=
  if_neg h.ne'

theorem shiftRightUpdate_zero (a r : Word) (f : Flags) : shiftRightUpdate a 0 r f = basicUpdate r f :=
  if_pos rfl

theorem shiftRightUpdate_pos {count : Nat} (h : 0 < count) (a r : Word) (f : Flags) :
    shiftRightUpdate a count r f = shiftUpdate r (a.getLsbD (count - 1)) f :=
  if_neg h.ne'

/-! ## The operations -/

theorem aluAdd_eq (a b : Word) (f : Flags) : aluAdd a b f = (a + b, addUpdate a b (a + b) f) := by
  simp [aluAdd, BitVec.ofNat_add]

theorem aluSub_eq (a b : Word) (f : Flags) : aluSub a b f = (a - b, subUpdate a b (a - b) f) := by
  simp only [aluSub, mask32_sub]

theorem aluCompare_eq (a b : Word) (f : Flags) : aluCompare a b f = subUpdate a b (a - b) f := by
  simp only [aluCompare, mask32_sub]

theorem aluDiv_zero (a : Word) (f : Flags) : aluDiv a 0#32 f = none :=
  if_pos rfl

theorem aluNot_fst (a : Word) (f : Flags) : (aluNot a f).1 = ~~~a :=
  BitVec.xor_allOnes

/-- The four logical operations leave C = O = 0 (R172). -/
theorem logical_clears_carry_overflow (a b : Word) (f : Flags) :
    ∀ r ∈ [aluAnd a b f, aluOr a b f, aluXor a b f, aluNot a f], r.2.c = false ∧ r.2.o = false := by
  have hlogical (r : Word) : (logicalUpdate r f).c = false ∧ (logicalUpdate r f).o = false := ⟨rfl, rfl⟩
  simp only [List.forall_mem_cons]
  exact ⟨hlogical _, hlogical _, hlogical _, hlogical _, by simp⟩

/-- The effective count is the count modulo 32 (R229). -/
theorem effectiveCount_eq_mod (k : Word) : effectiveCount k = k.toNat % 32 := by
  rw [effectiveCount, BitVec.toNat_and]
  exact Nat.and_two_pow_sub_one_eq_mod k.toNat 5

theorem aluRol_fst (a k : Word) (f : Flags) : (aluRol a k f).1 = a.rotateLeft k.toNat := by
  rw [BitVec.rotateLeft_def, ← effectiveCount_eq_mod]
  by_cases h : effectiveCount k = 0 <;> simp [aluRol, h, BitVec.ushiftRight_eq_zero]

theorem aluRor_fst (a k : Word) (f : Flags) : (aluRor a k f).1 = a.rotateRight k.toNat := by
  rw [BitVec.rotateRight_def, ← effectiveCount_eq_mod]
  by_cases h : effectiveCount k = 0 <;> simp [aluRor, h]

/-! ## Carry and overflow of the sum and the difference (R172) -/

theorem aluAdd_carry (a b : Word) (f : Flags) : (aluAdd a b f).2.c = true ↔ 2 ^ 32 - 1 < a.toNat + b.toNat := by
  simp only [aluAdd_eq, addUpdate_eq, decide_eq_true_eq]
  omega

theorem aluAdd_overflow (a b : Word) (f : Flags) :
    (aluAdd a b f).2.o = true ↔ a.msb = b.msb ∧ (aluAdd a b f).1.msb ≠ a.msb := by
  simp only [aluAdd_eq, addUpdate_eq, decide_eq_true_eq]

theorem aluSub_toNat (a b : Word) (f : Flags) :
    ((aluSub a b f).1.toNat : Int) = ((a.toNat : Int) - (b.toNat : Int)) % 2 ^ 32 :=
  mask32_toNat _

theorem aluSub_borrow (a b : Word) (f : Flags) : (aluSub a b f).2.c = true ↔ a.toNat < b.toNat := by
  simp only [aluSub_eq, subUpdate_eq, decide_eq_true_eq]

end Sys2Proof.Machine

namespace Sys2Proof.Proofs

open Sys2Proof.Machine

/-- Settles O3: each property of R172 from the equation of its operation; the rotations by the library's. -/
theorem aluTestableLawsHold : Obligations.AluTestableLawsHold := fun a b f g =>
  ⟨⟨BitVec.toNat_ofNat .., aluAdd_carry a b f, aluAdd_overflow a b f⟩,
   ⟨aluSub_toNat a b f, aluSub_borrow a b f⟩,
   aluDiv_zero a f,
   ⟨by rw [aluNot_fst, aluNot_fst, BitVec.not_not], logical_clears_carry_overflow a b f⟩,
   fun k _ => by rw [aluRor_fst, aluRol_fst, rotateRight_rotateLeft]⟩

/-- Settles O2: the routines whose rule is their definition by `rfl`, the others by the equations above. -/
theorem flagRoutinesFollowTheirRules : Obligations.FlagRoutinesFollowTheirRules := fun a b r _ _ _ f =>
  ⟨addUpdate_eq a b r f, subUpdate_eq a b r f, aluCompare_eq a b f, rfl, rfl,
   shiftLeftUpdate_zero a r f, fun hpos _ => shiftLeftUpdate_pos hpos a r f,
   shiftRightUpdate_zero a r f, fun hpos => shiftRightUpdate_pos hpos a r f,
   rfl, rfl, rfl, rfl, rfl⟩

end Sys2Proof.Proofs
end

section
/-! PROOFS. The conditional jumps through a step (spec/48_jumps.md R255, R257 to R263): the step is the jump entered with `pc` advanced. -/

namespace Sys2Proof.Machine

/-- Where the fetch succeeds and the word decodes, the step is the Execute phase of the instruction, after the fetch (R120, R124). -/
theorem step_of_decode {s : State} {i : Instr} (hs : s.halted = false) (hfetchable : Safety.Fetchable s)
    (hdecode : decode s.params (Memory.word s.mem s.pc.toNat) = .ok i) :
    step s = exec i (afterFetch (Memory.word s.mem s.pc.toNat) s) := by
  have hfetch : fetchWord s = .ok (Memory.word s.mem s.pc.toNat) := (fetchWord_ok ..).mpr ⟨hfetchable, rfl⟩
  simp [step, hs, hfetch, hdecode]

/-- Each conditional jump is `jumpIf` of its own flag condition (R257 to R262). -/
theorem exec_conditionalJump (addr : Half) (s : State) :
    ∀ p ∈ [(Instr.jz addr, s.flags.z), (Instr.jnz addr, !s.flags.z), (Instr.jc addr, s.flags.c),
      (Instr.jnc addr, !s.flags.c), (Instr.js addr, s.flags.s), (Instr.jns addr, !s.flags.s)],
      exec p.1 s = jumpIf p.2 addr s := by
  simp only [List.forall_mem_cons]
  exact ⟨rfl, rfl, rfl, rfl, rfl, rfl, by simp⟩

/-- The zero extension of the address is its number as a word (R255). -/
theorem jumpTarget_eq_ofNat (addr : Half) : jumpTarget addr = BitVec.ofNat 32 addr.toNat :=
  (BitVec.ofNat_toNat 32 addr).symm

end Sys2Proof.Machine

namespace Sys2Proof.Proofs

open Sys2Proof.Machine

/-- Settles O38: the step enters the jump with the flags of `s` and `pc` advanced by 4, and `jumpIf` decides between the two addresses. -/
theorem conditionalJumpsFollowTheirFlag : Obligations.ConditionalJumpsFollowTheirFlag := by
  intro s addr i met hs hfetchable hjump hdecode
  have hexec := exec_conditionalJump addr (afterFetch (Memory.word s.mem s.pc.toNat) s) (i, met) hjump
  refine ⟨_, (step_of_decode hs hfetchable hdecode).trans (hexec.trans (jumpIf_eq ..)), fun hmet => ?_, fun hnot => ?_⟩
  · simp [hmet, jumpTarget_eq_ofNat]
  · simp [hnot]

end Sys2Proof.Proofs
end

section
/-! PROOFS. The faults a step can take, and the two kinds left to the host's calls (spec/60_exceptions.md R279, R280). -/

namespace Sys2Proof.Machine

/-! ## The fault kinds of a step -/

/-- The fault is of one of the kinds that a step can take: neither of the two that belong to the host's calls (R279). -/
def Fault.OfStep (f : Fault) : Prop := f ≠ .programTooLarge ∧ ∀ name, f ≠ .flagError name

theorem Fault.ofStep_outOfRange (addr : Nat) : (Fault.outOfRange addr).OfStep := ⟨nofun, nofun⟩

theorem Fault.ofStep_misaligned (addr : Nat) : (Fault.misaligned addr).OfStep := ⟨nofun, nofun⟩

theorem Fault.ofStep_invalidInstruction (info : Nat) : (Fault.invalidInstruction info).OfStep := ⟨nofun, nofun⟩

theorem Fault.ofStep_divisionByZero : Fault.divisionByZero.OfStep := ⟨nofun, nofun⟩

/-- Both decode errors are reported as faults of a step (R123). -/
theorem decodeFault_ofStep (e : DecodeError) : (decodeFault e).OfStep := by
  cases e with
  | unknownOpcode | invalidRegister => exact ⟨nofun, nofun⟩

/-- What a word check reports is OutOfRange or Misaligned. -/
theorem wordCheck_ofStep {size addr : Nat} {f : Fault} (h : wordCheck size addr = some f) : f.OfStep := by
  obtain ⟨-, rfl⟩ | ⟨-, -, rfl⟩ := (wordCheck_eq_some size addr f).mp h
  · exact Fault.ofStep_outOfRange addr
  · exact Fault.ofStep_misaligned addr

/-! ## The faults recorded by the Execute phase -/

/-- A fault that the result records is of a kind that a step can take. -/
def RecordsStepFaults (r : Result) : Prop := ∀ t f, r = .next t → t.faulted = some f → f.OfStep

theorem RecordsStepFaults.fault {f : Fault} (hf : f.OfStep) (s : State) : RecordsStepFaults (raiseFault f s) := by
  intro t g hnext hrecorded
  obtain rfl : f = g := Option.some.inj ((raiseFault_next hnext).1.symm.trans hrecorded)
  exact hf

theorem RecordsStepFaults.retire (u : State) : RecordsStepFaults (retire u) := by
  intro t f hnext hrecorded
  exact nomatch (retire_next hnext).1.symm.trans hrecorded

theorem divideOp_recordsStepFaults (dest : RegIx) (b : Word) (s : State) : RecordsStepFaults (divideOp dest b s) := by
  unfold divideOp
  split
  · exact .fault Fault.ofStep_divisionByZero s
  · exact .retire _

theorem execLoad_recordsStepFaults (dest base : RegIx) (s : State) : RecordsStepFaults (execLoad dest base s) := by
  unfold execLoad
  split
  next f hread => exact .fault (wordCheck_ofStep ((readWord_error ..).mp hread)) s
  · exact .retire _

theorem execStore_recordsStepFaults (base src : RegIx) (s : State) : RecordsStepFaults (execStore base src s) := by
  unfold execStore
  split
  next f hwrite => exact .fault (wordCheck_ofStep ((writeWord_error ..).mp hwrite)) s
  · exact .retire _

/-- Only DIV, LOAD and STORE fault in the Execute phase, none of them with a kind of the host's calls (R280). -/
theorem exec_recordsStepFaults (i : Instr) (s : State) : RecordsStepFaults (exec i s) := by
  cases i with
  | load dest base => exact execLoad_recordsStepFaults dest base s
  | store base src => exact execStore_recordsStepFaults base src s
  | divReg | divImm => exact divideOp_recordsStepFaults _ _ s
  | nop | halt | clc | stc | movReg | movImm
  | addReg | addImm | subReg | subImm | mulReg | mulImm | addcReg | addcImm | subcReg | subcImm
  | andReg | andImm | orReg | orImm | xorReg | xorImm | notReg
  | shlReg | shlImm | shrReg | shrImm | sarReg | sarImm | rolReg | rolImm | rorReg | rorImm
  | cmpReg | cmpImm
  | jmp | jz | jnz | jc | jnc | js | jns => exact .retire _

/-! ## The faults reported by a step -/

/-- Fetch, decode and Execute record only kinds that a step can take. An idle step leaves `faulted` as it stands, so it is left out. -/
theorem step_recordsStepFaults {s : State} (hs : s.halted = false) : RecordsStepFaults (step s) := by
  obtain ⟨hidle, -⟩ | ⟨-, f, hfetch, heq⟩ | ⟨-, w, e, -, -, heq⟩ | ⟨-, w, i, -, -, heq⟩ := step_cases s
  · simp [hs] at hidle
  · obtain ⟨-, rfl⟩ := (fetchWord_error s f).mp hfetch
    exact heq ▸ .fault (Fault.ofStep_invalidInstruction _) s
  · exact heq ▸ .fault (decodeFault_ofStep e) _
  · exact heq ▸ exec_recordsStepFaults i _

/-- A reported fault is the recorded one, of a core that was not halted (R126). -/
theorem report_eq_fault (s t : State) (f : Fault) : report s t = .fault f ↔ s.halted = false ∧ t.faulted = some f := by
  unfold report
  cases s.halted <;> cases t.faulted <;> simp

theorem step_reports_ofStep {s t : State} {f : Fault} (hstep : step s = .next t) (hreport : report s t = .fault f) : f.OfStep := by
  obtain ⟨hs, hrecorded⟩ := (report_eq_fault s t f).mp hreport
  exact step_recordsStepFaults hs t f hstep hrecorded

/-! ## The refusals of the host's calls -/

/-- A `load_program` that does not fit changes no state (R279). -/
theorem perform_loadProgram_refused {bytes : List Byte} {start : Nat} {s : State} (h : s.params.memSize < start + bytes.length) :
    perform (.loadProgram bytes start) s = (s, .refused .programTooLarge) := by
  have hrefused : loadProgram bytes start s = .error .programTooLarge := (loadProgram_error ..).mpr ⟨h, rfl⟩
  simp [perform, answerWrite, hrefused]

theorem flagGet_refused {name : String} (h : name ∉ ["Z", "S", "C", "O", "P"]) (f : Flags) :
    flagGet name f = .error (.flagError name) := by
  simp only [List.mem_cons, List.not_mem_nil, not_or] at h
  simp [flagGet, h]

theorem flagSet_refused {name : String} (h : name ∉ ["Z", "S", "C", "O", "P"]) (bit : Bool) (f : Flags) :
    flagSet name bit f = .error (.flagError name) := by
  simp only [List.mem_cons, List.not_mem_nil, not_or] at h
  simp [flagSet, h]

end Sys2Proof.Machine

namespace Sys2Proof.Proofs

open Sys2Proof.Machine

/-- Settles O39: what a step reports is a kind of a step, which leaves the other two to the host's calls that answer them. -/
theorem stepRaisesNoHostFault : Obligations.StepRaisesNoHostFault := by
  refine ⟨fun s t hstep => ?_, fun _ _ _ => perform_loadProgram_refused,
    fun name bit f hname => ⟨flagGet_refused hname f, flagSet_refused hname bit f⟩⟩
  exact ⟨fun hreport => (step_reports_ofStep hstep hreport).1 rfl,
    fun name hreport => (step_reports_ofStep hstep hreport).2 name rfl⟩

end Sys2Proof.Proofs
end

section
/-! PROOFS. The snapshot of the core (spec/70_reset_and_hazards.md R325): what it shows, and what it leaves out. -/

namespace Sys2Proof.Machine

/-- The call answers the snapshot and changes no state (R325). -/
@[simp] theorem perform_getState (s : State) : perform .getState s = (s, .snapshot (getState s)) := rfl

/-- Each register of the snapshot is the one the core reads. -/
@[simp] theorem getState_registers_getElem (s : State) (i : RegIx) : (getState s).registers[i.val] = State.x s i := rfl

/-- `sp` repeats R8; it is no state of its own (R22, R325). -/
@[simp] theorem getState_sp (s : State) : (getState s).sp = State.x s 8 := rfl

/-- The snapshot tells two states apart by the registers, `pc`, the flags, `running`, `halted` and the count, and by nothing else. -/
theorem getState_eq_iff (s t : State) :
    getState s = getState t ↔ s.regs = t.regs ∧ s.pc = t.pc ∧ s.flags = t.flags ∧ s.running = t.running ∧
      s.halted = t.halted ∧ s.cycleCount = t.cycleCount := by
  have hsp (hregs : s.regs = t.regs) : State.sp s = State.sp t := by
    simp [State.sp, State.x, hregs]
  constructor
  · intro h
    simp only [getState, Snapshot.mk.injEq] at h
    obtain ⟨hregs, hpc, -, hflags, hrunning, hhalted, hcount⟩ := h
    exact ⟨hregs, hpc, hflags, hrunning, hhalted, hcount⟩
  · rintro ⟨hregs, hpc, hflags, hrunning, hhalted, hcount⟩
    simp only [getState, hregs, hpc, hsp hregs, hflags, hrunning, hhalted, hcount]

/-- Neither `ir` nor memory is in the snapshot (R325). -/
theorem getState_ir_mem (s : State) (ir' : Word) (mem' : Memory) :
    getState { s with ir := ir', mem := mem' } = getState s :=
  (getState_eq_iff ..).mpr ⟨rfl, rfl, rfl, rfl, rfl, rfl⟩

end Sys2Proof.Machine

namespace Sys2Proof.Proofs

open Sys2Proof.Machine

/-- Settles O51: the reply, the registers and `sp` by their lemmas, the other fields by projection, and the independence from `ir` and memory because equal visible fields give equal snapshots. -/
theorem snapshotShowsTheStateAndChangesNothing : Obligations.SnapshotShowsTheStateAndChangesNothing :=
  fun s ir' mem' => ⟨perform_getState s, getState_registers_getElem s, getState_sp s,
    rfl, rfl, rfl, rfl, rfl, getState_ir_mem s ir' mem'⟩

end Sys2Proof.Proofs
end

section
/-! PROOFS. What a step writes, said once for all instructions: registers, `pc`, `ir`, memory and the engine state; and from it the frames of a
step (spec/10_state.md R24 to R31, spec/20_memory.md section 3, spec/60_exceptions.md R280). -/

namespace Sys2Proof

/-- `r` is the register that the class of the instruction lets it write: its destination, but not of STORE and not of CMP (R24). -/
def Instr.WritesReg (i : Instr) (r : RegIx) : Prop :=
  i.record.dest = some r ∧ i.opcode.shape ≠ .store ∧ i.opcode ≠ .cmpReg ∧ i.opcode ≠ .cmpImm

theorem Instr.WritesReg.intro {i : Instr} {r : RegIx} (hdest : i.record.dest = some r)
    (hop : decide (i.opcode.shape ≠ .store ∧ i.opcode ≠ .cmpReg ∧ i.opcode ≠ .cmpImm) = true) : i.WritesReg r :=
  ⟨hdest, of_decide_eq_true hop⟩

end Sys2Proof

namespace Sys2Proof.Machine

open Sys2Proof.Safety Sys2Proof.Claims

/-! ## The two ends of a step, as states -/

theorem retire_eq_counted (s : State) : retire s = .next (counted s) := rfl

theorem raiseFault_eq_faultTaken (f : Fault) (s : State) : raiseFault f s = .next (faultTaken f s) := rfl

/-! ## The Execute phase -/

/-- What the instruction can have written when it retires from `u`, entered with `s`. -/
structure ExecWrites (i : Instr) (s u : State) : Prop where
  engine : KeepsEngine s u ∨ (i = .halt ∧ u = { s with halted := true, running := false })
  reg : ∀ r, State.x u r ≠ State.x s r → i.WritesReg r
  pc : u.pc = s.pc ∨ ∃ addr, i.record.address = some addr ∧ u.pc = jumpTarget addr
  mem : u.mem = s.mem ∨ ∃ base src, i = .store base src ∧ indirectAddress base s + 4 ≤ s.params.memSize ∧
    u.mem = Memory.setWord s.mem (indirectAddress base s) (State.x s src)

theorem ExecWrites.params {i : Instr} {s u : State} (h : ExecWrites i s u) : u.params = s.params := by
  obtain hkeeps | ⟨-, rfl⟩ := h.engine
  · exact hkeeps.params
  · rfl

theorem ExecWrites.ir {i : Instr} {s u : State} (h : ExecWrites i s u) : u.ir = s.ir := by
  obtain hkeeps | ⟨-, rfl⟩ := h.engine
  · exact hkeeps.ir
  · rfl

theorem ExecWrites.refl (i : Instr) (s : State) : ExecWrites i s s :=
  ⟨.inl (.refl s), fun _ hne => absurd rfl hne, .inl rfl, .inl rfl⟩

theorem ExecWrites.halt (s : State) : ExecWrites .halt s { s with halted := true, running := false } :=
  ⟨.inr ⟨rfl, rfl⟩, fun _ hne => absurd rfl hne, .inl rfl, .inl rfl⟩

theorem ExecWrites.setFlags (i : Instr) (s : State) (f : Flags) : ExecWrites i s (State.setFlags s f) :=
  ⟨.inl ((KeepsEngine.refl s).setFlags f), fun _ hne => absurd rfl hne, .inl rfl, .inl rfl⟩

theorem ExecWrites.setX {i : Instr} {dest : RegIx} (hi : i.WritesReg dest) (s : State) (v : Word) :
    ExecWrites i s (State.setX s dest v) where
  engine := .inl (.setX s dest v)
  reg r hne := by
    by_cases hr : r = dest
    · exact hr ▸ hi
    · exact absurd (setX_x_other s dest r v hr) hne
  pc := .inl rfl
  mem := .inl rfl

theorem ExecWrites.setX_setFlags {i : Instr} {dest : RegIx} (hi : i.WritesReg dest) (s : State) (v : Word) (f : Flags) :
    ExecWrites i s (State.setFlags (State.setX s dest v) f) :=
  have hset := ExecWrites.setX hi s v
  ⟨.inl ((KeepsEngine.setX s dest v).setFlags f), hset.reg, hset.pc, hset.mem⟩

theorem ExecWrites.setPc {i : Instr} {addr : Half} (hi : i.record.address = some addr) (s : State) :
    ExecWrites i s (State.setPc s (jumpTarget addr)) :=
  ⟨.inl (.setPc s _), fun _ hne => absurd rfl hne, .inr ⟨addr, hi, rfl⟩, .inl rfl⟩

/-- The instruction entered with `s` takes a fault there, or retires from a state that it can have written. -/
def EndsWriting (i : Instr) (s : State) (r : Result) : Prop :=
  (∃ f, r = raiseFault f s) ∨ ∃ u, ExecWrites i s u ∧ r = retire u

theorem EndsWriting.retire {i : Instr} {s u : State} (h : ExecWrites i s u) : EndsWriting i s (retire u) := .inr ⟨u, h, rfl⟩

theorem EndsWriting.fault (i : Instr) (f : Fault) (s : State) : EndsWriting i s (raiseFault f s) := .inl ⟨f, rfl⟩

theorem divideOp_endsWriting {i : Instr} {dest : RegIx} (hi : i.WritesReg dest) (b : Word) (s : State) :
    EndsWriting i s (divideOp dest b s) := by
  unfold divideOp
  split
  · exact .fault i _ s
  · exact .retire (.setX_setFlags hi s _ _)

theorem jumpIf_endsWriting {i : Instr} {addr : Half} (hi : i.record.address = some addr) (taken : Bool) (s : State) :
    EndsWriting i s (jumpIf taken addr s) := by
  cases taken with
  | false => exact .retire (.refl i s)
  | true => exact .retire (.setPc hi s)

theorem execLoad_endsWriting (dest base : RegIx) (s : State) : EndsWriting (.load dest base) s (execLoad dest base s) := by
  unfold execLoad
  split
  · exact .fault _ _ s
  · exact .retire (.setX (.intro rfl rfl) s _)

theorem execStore_endsWriting (base src : RegIx) (s : State) : EndsWriting (.store base src) s (execStore base src s) := by
  unfold execStore
  split
  · exact .fault _ _ s
  next u hwrite =>
    obtain ⟨⟨hfits, -⟩, rfl⟩ := (writeWord_ok ..).mp hwrite
    exact .retire ⟨.inl ⟨rfl, rfl, rfl, rfl, rfl⟩, fun _ hne => absurd rfl hne, .inl rfl, .inr ⟨base, src, rfl, hfits, rfl⟩⟩

/-- Everything the Execute phase can do, by the shape of the handler (R124). -/
theorem exec_endsWriting (i : Instr) (s : State) : EndsWriting i s (exec i s) := by
  cases i with
  | nop => exact .retire (.refl _ s)
  | halt => exact .retire (.halt s)
  | clc | stc | cmpReg | cmpImm => exact .retire (.setFlags _ s _)
  | movReg | movImm => exact .retire (.setX (.intro rfl rfl) s _)
  | load dest base => exact execLoad_endsWriting dest base s
  | store base src => exact execStore_endsWriting base src s
  | addReg | addImm | subReg | subImm | mulReg | mulImm | addcReg | addcImm | subcReg | subcImm
  | andReg | andImm | orReg | orImm | xorReg | xorImm | notReg
  | shlReg | shlImm | shrReg | shrImm | sarReg | sarImm | rolReg | rolImm | rorReg | rorImm =>
    exact .retire (.setX_setFlags (.intro rfl rfl) s _ _)
  | divReg | divImm => exact divideOp_endsWriting (.intro rfl rfl) _ s
  | jmp | jz | jnz | jc | jnc | js | jns => exact jumpIf_endsWriting rfl _ s

theorem exec_next (i : Instr) (s : State) : ∃ t, exec i s = .next t := by
  obtain ⟨f, heq⟩ | ⟨u, -, heq⟩ := exec_endsWriting i s
  · exact ⟨faultTaken f s, heq⟩
  · exact ⟨counted u, heq⟩

/-! ## The step -/

/-- The state in which the Execute phase is entered: the word at `pc` is in `ir` and `pc` is advanced (R120). -/
def fetched (s : State) : State := afterFetch (Memory.word s.mem s.pc.toNat) s

/-- The next states of a step: the same state (idle), the fetch fault, a fault after the fetch, or the instruction's retirement. -/
inductive StepTo (s : State) : State → Prop where
  | idle (halted : s.halted = true) : StepTo s s
  | fetchFault (notHalted : s.halted = false) (unfetchable : ¬ Fetchable s) : StepTo s (faultTaken (.invalidInstruction s.pc.toNat) s)
  | laterFault (f : Fault) (notHalted : s.halted = false) (fetchable : Fetchable s) : StepTo s (faultTaken f (fetched s))
  | retired (i : Instr) (u : State) (notHalted : s.halted = false) (fetchable : Fetchable s)
      (decoded : decode s.params (Memory.word s.mem s.pc.toNat) = .ok i) (writes : ExecWrites i (fetched s) u) : StepTo s (counted u)

theorem step_stepTo (s : State) : ∃ t, step s = .next t ∧ StepTo s t := by
  obtain ⟨hidle, heq⟩ | ⟨hrun, f, hfetch, heq⟩ | ⟨hrun, w, e, hfetch, -, heq⟩ | ⟨hrun, w, i, hfetch, hdecode, heq⟩ := step_cases s
  · exact ⟨s, heq, .idle hidle⟩
  · obtain ⟨hbad, rfl⟩ := (fetchWord_error s f).mp hfetch
    exact ⟨_, heq, .fetchFault hrun hbad⟩
  · obtain ⟨hgood, rfl⟩ := (fetchWord_ok s w).mp hfetch
    exact ⟨_, heq, .laterFault _ hrun hgood⟩
  · obtain ⟨hgood, rfl⟩ := (fetchWord_ok s w).mp hfetch
    obtain ⟨f, hfault⟩ | ⟨u, hwrites, hretire⟩ := exec_endsWriting i (fetched s)
    · exact ⟨_, heq.trans hfault, .laterFault f hrun hgood⟩
    · exact ⟨_, heq.trans hretire, .retired i u hrun hgood hdecode hwrites⟩

theorem StepTo.of_next {s t : State} (h : step s = .next t) : StepTo s t := by
  obtain ⟨t', hstep, hto⟩ := step_stepTo s
  cases hstep.symm.trans h
  exact hto

theorem step_stepped (s : State) : step s = .next (stepped s) := by
  obtain ⟨t, hstep, -⟩ := step_stepTo s
  rw [hstep, stepped_of_next hstep]

theorem stepTo_stepped (s : State) : StepTo s (stepped s) := .of_next (step_stepped s)

@[simp] theorem report_counted {s : State} (hs : s.halted = false) (u : State) : report s (counted u) = .executed :=
  report_of_not_halted hs rfl

/-! ## The frames of a step -/

/-- A step changes only a register that its instruction writes (R24). -/
theorem StepTo.writesReg {s t : State} (h : StepTo s t) {r : RegIx} (hne : State.x t r ≠ State.x s r) :
    ∃ i : Instr, Fetchable s ∧ decode s.params (Memory.word s.mem s.pc.toNat) = .ok i ∧ i.WritesReg r := by
  cases h with
  | idle | fetchFault | laterFault => exact absurd rfl hne
  | retired i u _ hgood hdecode hwrites => exact ⟨i, hgood, hdecode, hwrites.reg r hne⟩

/-- Memory after a step: as before, or one word written by STORE that fits into memory. -/
theorem StepTo.mem {s t : State} (h : StepTo s t) :
    t.mem = s.mem ∨ ∃ base src, decode s.params (Memory.word s.mem s.pc.toNat) = .ok (.store base src) ∧
      indirectAddress base s + 4 ≤ s.params.memSize ∧ t.mem = Memory.setWord s.mem (indirectAddress base s) (State.x s src) := by
  cases h with
  | idle | fetchFault | laterFault => exact .inl rfl
  | retired i u _ _ hdecode hwrites =>
    obtain hkept | ⟨base, src, rfl, hfits, hwritten⟩ := hwrites.mem
    · exact .inl hkept
    · exact .inr ⟨base, src, hdecode, hfits, hwritten⟩

theorem StepTo.params {s t : State} (h : StepTo s t) : t.params = s.params := by
  cases h with
  | idle | fetchFault | laterFault => rfl
  | retired i u _ _ _ hwrites => exact hwrites.params

/-- `ir` and `pc` after a step that fetched (R26, R27, R255). -/
theorem StepTo.ir_pc {s t : State} (h : StepTo s t) (hs : s.halted = false) (hgood : Fetchable s) :
    t.ir = Memory.word s.mem s.pc.toNat ∧
    (t.pc = s.pc + 4#32 ∨ ∃ (i : Instr) (addr : Half), decode s.params (Memory.word s.mem s.pc.toNat) = .ok i ∧
      i.record.address = some addr ∧ t.pc = jumpTarget addr) := by
  cases h with
  | idle hidle => simp [hs] at hidle
  | fetchFault _ hbad => exact absurd hgood hbad
  | laterFault => exact ⟨rfl, .inl rfl⟩
  | retired i u _ _ hdecode hwrites =>
    refine ⟨hwrites.ir, ?_⟩
    obtain hkept | ⟨addr, haddr, hjumped⟩ := hwrites.pc
    · exact .inl hkept
    · exact .inr ⟨i, addr, hdecode, haddr, hjumped⟩

theorem jumpTarget_toNat (addr : Half) : (jumpTarget addr).toNat = addr.toNat := by
  simp [jumpTarget]
  omega

/-- A step that faults leaves one of the two states of the table of R280. -/
theorem StepTo.of_fault {s t : State} {f : Fault} (h : StepTo s t) (hreport : report s t = .fault f) :
    (¬ Fetchable s ∧ ∃ g, t = faultTaken g s) ∨ (Fetchable s ∧ ∃ g, t = faultTaken g (fetched s)) := by
  cases h with
  | idle hidle => simp [report_of_halted s hidle] at hreport
  | fetchFault _ hbad => exact .inl ⟨hbad, _, rfl⟩
  | laterFault g _ hgood => exact .inr ⟨hgood, g, rfl⟩
  | retired i u hrun => simp [report_counted hrun] at hreport

/-- A step sets `halted` only as HALT does, with `running` cleared (R31). -/
theorem StepTo.halted_running {s t : State} (h : StepTo s t) :
    (t.halted = s.halted) ∨ (t.halted = true ∧ t.running = false) := by
  cases h with
  | idle | fetchFault | laterFault => exact .inl rfl
  | retired i u _ _ _ hwrites =>
    obtain hkeeps | ⟨-, rfl⟩ := hwrites.engine
    · exact .inl hkeeps.halted
    · exact .inr ⟨rfl, rfl⟩

end Sys2Proof.Machine

namespace Sys2Proof.Proofs

open Sys2Proof.Machine Sys2Proof.Safety Sys2Proof.Claims

/-- Settles O25: a step ends in one of the four next states, an instruction in a fault taken or in its retirement. -/
theorem stepAlwaysAnswersNext : Obligations.StepAlwaysAnswersNext := fun s =>
  ⟨⟨_, step_stepped s⟩, fun i => exec_next i s⟩

/-- Settles O26: the two states that a faulting step can leave have every field but `running`, `pc` and `ir` from the state before. -/
theorem faultingStepWritesNothing : Obligations.FaultingStepWritesNothing := by
  intro s t f hs hstep hreport
  obtain ⟨hbad, g, rfl⟩ | ⟨hgood, g, rfl⟩ := (StepTo.of_next hstep).of_fault hreport
  · exact ⟨rfl, rfl, rfl, rfl, hs, rfl, rfl, .inl ⟨hbad, rfl, rfl⟩⟩
  · exact ⟨rfl, rfl, rfl, rfl, hs, rfl, rfl, .inr ⟨hgood, rfl, rfl⟩⟩

/-- Settles O34: the register is one that the decoded instruction writes. -/
theorem stepWritesOnlyTheDestination : Obligations.StepWritesOnlyTheDestination := fun _ _ _ hstep hne =>
  (StepTo.of_next hstep).writesReg hne

/-- Settles O35: memory is as before or has one word written, which leaves every byte outside its four alone. -/
theorem onlyStoreChangesMemory : Obligations.OnlyStoreChangesMemory := by
  intro s t hstep
  obtain hkept | ⟨base, src, hdecode, -, hwritten⟩ := (StepTo.of_next hstep).mem
  · exact .inl fun a => by rw [hkept]
  · exact .inr ⟨base, src, hdecode, fun a ha => by rw [hwritten, Memory.byte_setWord_other _ _ ha]⟩

/-- Settles O36: a step that fetched leaves the advanced `pc`, or the zero-extended address of its jump. -/
theorem pcAdvancesByFourOrJumps : Obligations.PcAdvancesByFourOrJumps := by
  intro s t hs hgood hstep
  obtain ⟨hir, hpc | ⟨i, addr, hdecode, haddr, hpc⟩⟩ := (StepTo.of_next hstep).ir_pc hs hgood
  · exact ⟨hir, .inl hpc⟩
  · exact ⟨hir, .inr ⟨i, addr, hdecode, haddr, by rw [hpc, jumpTarget_toNat]⟩⟩

end Sys2Proof.Proofs
end

section
/-! PROOFS. The invariants of the machine: legal states through steps and host operations (spec/20_memory.md section 1, spec/70_reset_and_hazards.md
section 1), and a halted core that does not run (spec/10_state.md R30, R31). -/

namespace Sys2Proof.Machine

open Sys2Proof.Safety

/-- A state with the same parameters and a memory that is canonical and in bounds is legal again. -/
theorem Legal.of_mem {s t : State} (hs : Legal s) (hparams : t.params = s.params) (hwf : Memory.wf t.mem = true)
    (hinside : Memory.inside t.mem s.params.memSize = true) : Legal t := by
  obtain ⟨hvalid, -, -⟩ := hs
  exact ⟨hparams ▸ hvalid, hwf, hparams ▸ hinside⟩

/-- `t` is as legal as `s` and has the same parameters. -/
def LegalAs (s t : State) : Prop := Legal s → Legal t ∧ t.params = s.params

theorem LegalAs.of_same_mem {s t : State} (hmem : t.mem = s.mem) (hparams : t.params = s.params) : LegalAs s t :=
  fun hs => ⟨Legal.of_mem hs hparams (hmem ▸ hs.2.1) (hmem ▸ hs.2.2), hparams⟩

theorem LegalAs.refl (s : State) : LegalAs s s := .of_same_mem rfl rfl

theorem LegalAs.trans {s t u : State} (h : LegalAs s t) (h' : LegalAs t u) : LegalAs s u := fun hs =>
  have ⟨ht, hparams⟩ := h hs
  have ⟨hu, hparams'⟩ := h' ht
  ⟨hu, hparams'.trans hparams⟩

/-- A word write that fits keeps a state legal. -/
theorem LegalAs.setWord {s t : State} {a : Nat} {v : Word} (hfits : a + 4 ≤ s.params.memSize)
    (hmem : t.mem = Memory.setWord s.mem a v) (hparams : t.params = s.params) : LegalAs s t := by
  intro hs
  have ⟨_, hwf, hinside⟩ := hs
  exact ⟨Legal.of_mem hs hparams (hmem ▸ Memory.wf_setWord hwf a v) (hmem ▸ Memory.inside_setWord v hfits hinside), hparams⟩

theorem StepTo.legalAs {s t : State} (h : StepTo s t) : LegalAs s t := by
  obtain hkept | ⟨base, src, -, hfits, hwritten⟩ := h.mem
  · exact .of_same_mem hkept h.params
  · exact .setWord hfits hwritten h.params

/-- What every step keeps, the loop of `run` keeps. -/
theorem runLoop_legalAs (n : Nat) (s : State) : LegalAs s (runLoop n s) := by
  induction n generalizing s with
  | zero => exact .refl s
  | succ n ih =>
    unfold runLoop
    split
    · exact (stepTo_stepped s).legalAs.trans (ih _)
    · exact .refl s

theorem run_legalAs (n : Nat) (s : State) : LegalAs s (run n s) :=
  (LegalAs.of_same_mem (t := { s with running := true }) rfl rfl).trans (runLoop_legalAs n _)

theorem answerWrite_legalAs {s : State} {r : Except Fault State} (h : ∀ t, r = .ok t → LegalAs s t) :
    LegalAs s (answerWrite s r).1 := by
  obtain hsame | hwritten := answerWrite_cases s r
  · rw [hsame]
    exact .refl s
  · exact h _ hwritten

theorem loadProgram_legalAs {bytes : List Byte} {start : Nat} {s t : State} (h : loadProgram bytes start s = .ok t) : LegalAs s t := by
  obtain ⟨hfits, rfl⟩ := (loadProgram_ok ..).mp h
  intro hs
  have ⟨_, hwf, hinside⟩ := hs
  exact ⟨Legal.of_mem hs rfl (Memory.wf_setBytes bytes hwf start) (Memory.inside_setBytes bytes hfits hinside), rfl⟩

theorem regSet_legalAs {index : Nat} {value : Int} {s t : State} (h : regSet index value s = .ok t) : LegalAs s t := by
  obtain ⟨r, rfl⟩ | rfl | rfl := regSet_cases h <;> exact .of_same_mem rfl rfl

theorem writeByte_legalAs {addr : Nat} {v : Int} {s t : State} (h : writeByte addr v s = .ok t) : LegalAs s t := by
  obtain ⟨hin, rfl⟩ := (writeByte_ok ..).mp h
  intro hs
  have ⟨_, hwf, hinside⟩ := hs
  exact ⟨Legal.of_mem hs rfl (Memory.wf_setByte hwf _ _) (Memory.inside_setByte _ hin _ hinside), rfl⟩

theorem writeWord_legalAs {addr : Nat} {v : Word} {s t : State} (h : writeWord addr v s = .ok t) : LegalAs s t := by
  obtain ⟨⟨hfits, -⟩, rfl⟩ := (writeWord_ok ..).mp h
  exact .setWord hfits rfl rfl

/-- Every host operation keeps a legal state legal (R310). -/
theorem perform_legalAs (op : HostOp) (s : State) : LegalAs s (perform op s).1 := by
  cases op with
  | reset => exact .of_same_mem rfl rfl
  | step => exact (stepTo_stepped s).legalAs
  | run n => exact run_legalAs n s
  | getState => exact .refl s
  | regGet | readWord => exact (answerWord_fst s _).symm ▸ .refl s
  | readByte => exact (answerByte_fst s _).symm ▸ .refl s
  | loadProgram => exact answerWrite_legalAs fun _ => loadProgram_legalAs
  | regSet => exact answerWrite_legalAs fun _ => regSet_legalAs
  | writeByte => exact answerWrite_legalAs fun _ => writeByte_legalAs
  | writeWord => exact answerWrite_legalAs fun _ => writeWord_legalAs

theorem performAll_legalAs (ops : List HostOp) (s : State) : LegalAs s (performAll ops s) := by
  induction ops generalizing s with
  | nil => exact .refl s
  | cons op rest ih => exact (perform_legalAs op s).trans (ih _)

/-- Memory is built at construction by byte writes below `MEM_SIZE` into the empty memory (R311). -/
theorem construct_legal {c : Config} {init : List Byte} {s : State} (h : construct c init = some s) : Legal s := by
  obtain ⟨hvalid, rfl⟩ := (construct_eq_some c init s).mp h
  have hfits : 0 + (init.take c.memSize).length ≤ c.memSize := by simp
  exact ⟨hvalid, Memory.wf_setBytes _ rfl 0, Memory.inside_setBytes _ hfits rfl⟩

theorem construct_default : construct Config.default [] = some State.reset := rfl

theorem StepTo.haltedStopped {s t : State} (h : StepTo s t) (hs : HaltedStopped s) : HaltedStopped t := by
  intro ht
  obtain hkept | ⟨-, hstopped⟩ := h.halted_running
  · cases h with
    | idle => exact hs ht
    | fetchFault | laterFault => rfl
    | retired i u hrun => simp [hkept, hrun] at ht
  · exact hstopped

end Sys2Proof.Machine

namespace Sys2Proof.Proofs

open Sys2Proof.Machine Sys2Proof.Safety

/-- Settles O31: a step leaves memory alone or writes one word that fits. -/
theorem stepKeepsLegalState : Obligations.StepKeepsLegalState := fun _ _ hs hstep => (StepTo.of_next hstep).legalAs hs

/-- Settles O32, by induction on the sequence of operations; the base is the memory that construction writes. -/
theorem hostOperationsKeepLegalState : Obligations.HostOperationsKeepLegalState :=
  ⟨fun _ _ _ => construct_legal, fun ops s => performAll_legalAs ops s⟩

/-- Settles O33: the reset state is the construction with the default parameters, and it is not halted. -/
theorem resetStateIsLegal : Obligations.ResetStateIsLegal := ⟨construct_legal construct_default, nofun⟩

/-- Settles O30: a step that faults clears `running`, and so does HALT, the one instruction that sets `halted`. -/
theorem haltedCoreStaysStopped : Obligations.HaltedCoreStaysStopped := fun _ _ hs hstep =>
  (StepTo.of_next hstep).haltedStopped hs

end Sys2Proof.Proofs
end

section
/-! PROOFS. Decode and encode (spec/30_encoding.md): the two round trips R95, the unread bits R88, the unknown opcodes R91, the worked words R98 and
the assembled bytes R111. -/

namespace Sys2Proof

/-! ## `OPCODE_MAP` -/

theorem Config.mem_opcodes {c : Config} {e : Byte × Opcode} :
    e ∈ c.opcodes ↔ e ∈ c.opcodeMap ∧ (c.tierD = true ∨ e.2.tier = .s) := by
  unfold Config.opcodes
  cases c.tierD <;> simp

/-- An identity is available exactly where `OPCODE_MAP` has a row for it in the tiers that exist (R89). -/
theorem Config.available_iff (c : Config) (op : Opcode) : c.available op = true ↔ ∃ b, (b, op) ∈ c.opcodes := by
  simp only [Config.available, Config.mem_opcodes, Bool.and_eq_true, Bool.or_eq_true, decide_eq_true_eq, List.mem_map, Prod.exists,
    exists_eq_right]
  exact exists_and_right.symm

theorem Config.mem_of_lookup {c : Config} {b : Byte} {op : Opcode} (h : c.lookup b = some op) : (b, op) ∈ c.opcodes := by
  obtain ⟨e, hfind, rfl⟩ := Option.map_eq_some_iff.mp h
  obtain rfl : e.1 = b := by simpa using List.find?_some hfind
  exact List.mem_of_find?_eq_some hfind

/-- Where the parameters are valid, each row is found by its number. -/
theorem Config.lookup_of_mem {c : Config} (hc : c.valid = true) {b : Byte} {op : Opcode} (h : (b, op) ∈ c.opcodes) :
    c.lookup b = some op := by
  rw [Config.lookup, find_of_nodup_map (·.1) c.opcodes (b, op) (Config.opcodes_nodup hc).1 h]
  rfl

theorem Config.lookup_available {c : Config} {b : Byte} {op : Opcode} (h : c.lookup b = some op) : c.available op = true :=
  (c.available_iff op).mpr ⟨b, Config.mem_of_lookup h⟩

/-! ## The fields that an encoded instruction carries -/

@[simp] theorem checkReg_ofNat (r : RegIx) : checkReg (BitVec.ofNat 8 r.val) = .ok r := (checkReg_ok _ r).mpr rfl

theorem setWidth_byte_regIx (r : RegIx) : BitVec.setWidth 16 (BitVec.ofNat 8 r.val) = BitVec.ofNat 16 r.val := by
  apply BitVec.eq_of_toNat_eq
  simp
  omega

/-- A representable immediate is the sign extension of its low half (R94). -/
theorem sext16_of_representable {imm : Word} (h : immRepresentable imm = true) : sext16 (BitVec.setWidth 16 imm) = imm := by
  rw [sext16_eq_signExtend]
  exact of_decide_eq_true h

/-- Every sign-extended immediate is representable, with the half it was extended from. -/
theorem setWidth_sext16 (v : Half) : BitVec.setWidth 16 (sext16 v) = v := by
  apply BitVec.eq_of_getLsbD_eq
  intro i hi
  have hi' : i < 32 := by omega
  rw [sext16_eq_signExtend, BitVec.getLsbD_setWidth, BitVec.getLsbD_signExtend]
  simp [hi, hi']

theorem immRepresentable_sext16 (v : Half) : immRepresentable (sext16 v) = true := by
  rw [immRepresentable, decide_eq_true_eq, setWidth_sext16, sext16_eq_signExtend]

/-- The check on the immediate is a check on the record's field. -/
theorem Instr.immOk_iff (i : Instr) : i.immOk = true ↔ ∀ imm, i.record.immediate = some imm → immRepresentable imm = true := by
  have hfield (imm : Word) : immRepresentable imm = true ↔ ∀ imm', some imm = some imm' → immRepresentable imm' = true := by
    simp
  cases i with
  | nop | halt | clc | stc | movReg | load | store | addReg | subReg | mulReg | divReg | addcReg | subcReg | andReg | orReg | xorReg
  | notReg | shlReg | shrReg | sarReg | rolReg | rorReg | cmpReg | jmp | jz | jnz | jc | jnc | js | jns => exact ⟨nofun, fun _ => rfl⟩
  | movImm _ imm | addImm _ imm | subImm _ imm | mulImm _ imm | divImm _ imm | addcImm _ imm | subcImm _ imm | andImm _ imm
  | orImm _ imm | xorImm _ imm | shlImm _ imm | shrImm _ imm | sarImm _ imm | rolImm _ imm | rorImm _ imm | cmpImm _ imm =>
    exact hfield imm

/-! ## Decode after encode -/

theorem decodeTwoRegs_packFields (mk : RegIx → RegIx → Instr) (n : Byte) (d s : RegIx) :
    decodeTwoRegs mk (packFields n (BitVec.ofNat 8 d.val) (BitVec.ofNat 16 s.val)) = .ok (mk d s) := by
  simp [decodeTwoRegs]

theorem decodeRegImm_packFields (mk : RegIx → Word → Instr) (n : Byte) (d : RegIx) {imm : Word} (h : immRepresentable imm = true) :
    decodeRegImm mk (packFields n (BitVec.ofNat 8 d.val) (BitVec.setWidth 16 imm)) = .ok (mk d imm) := by
  simp [decodeRegImm, sext16_of_representable h]

theorem decodeRegUnary_packFields (mk : RegIx → Instr) (n : Byte) (d : RegIx) (o : Half) :
    decodeRegUnary mk (packFields n (BitVec.ofNat 8 d.val) o) = .ok (mk d) := by
  simp [decodeRegUnary]

theorem decodeJump_packFields (mk : Half → Instr) (n r : Byte) (addr : Half) :
    decodeJump mk (packFields n r addr) = .ok (mk addr) := by
  simp [decodeJump]

/-- The fields that the encoder writes are read back by the class of the instruction (R94). -/
theorem decodeFields_packFields (n : Byte) {i : Instr} (h : i.immOk = true) :
    decodeFields i.opcode (packFields n i.record.reg1 i.record.operand) = .ok i := by
  cases i with
  | nop | halt | clc | stc => rfl
  | movReg | load | store | addReg | subReg | mulReg | divReg | addcReg | subcReg | andReg | orReg | xorReg
  | shlReg | shrReg | sarReg | rolReg | rorReg | cmpReg => exact decodeTwoRegs_packFields ..
  | movImm | addImm | subImm | mulImm | divImm | addcImm | subcImm | andImm | orImm | xorImm
  | shlImm | shrImm | sarImm | rolImm | rorImm | cmpImm => exact decodeRegImm_packFields _ n _ h
  | notReg => exact decodeRegUnary_packFields ..
  | jmp | jz | jnz | jc | jnc | js | jns => exact decodeJump_packFields ..

theorem encode_eq_some {c : Config} {i : Instr} {w : Word} :
    encode c i = some w ↔ wellFormed c i = true ∧ ∃ n, c.number i.opcode = some n ∧ w = packFields n i.record.reg1 i.record.operand := by
  unfold encode
  cases wellFormed c i <;> cases c.number i.opcode <;> simp [eq_comm]

/-- A representable instruction has a word (R94). -/
theorem encode_of_wellFormed {c : Config} {i : Instr} (hc : c.valid = true) (hi : wellFormed c i = true) :
    ∃ w, encode c i = some w := by
  have ⟨_, havailable⟩ := (Bool.and_eq_true _ _).mp hi
  obtain ⟨n, hrow⟩ := (c.available_iff _).mp havailable
  exact ⟨_, encode_eq_some.mpr ⟨hi, n, (Config.lookup_iff_number hc _ _).mp (Config.lookup_of_mem hc hrow), rfl⟩⟩

/-- Decode undoes encode (R95). -/
theorem decode_of_encode {c : Config} {i : Instr} {w : Word} (hc : c.valid = true) (h : encode c i = some w) : decode c w = .ok i := by
  obtain ⟨hi, n, hnumber, rfl⟩ := encode_eq_some.mp h
  obtain ⟨himm, -⟩ := (Bool.and_eq_true _ _).mp hi
  refine decode_ok.mpr ⟨i.opcode, ?_, decodeFields_packFields n himm⟩
  rw [opcodeField_packFields]
  exact (Config.lookup_iff_number hc _ _).mpr hnumber

/-! ## The canonical word -/

@[simp] theorem opcodeField_canonical (op : Opcode) (w : Word) : opcodeField (canonical op w) = opcodeField w := by
  unfold canonical
  cases op.shape <;> simp

/-- The record read from a word encodes to the word's canonical fields (R88, R94). -/
theorem ReadsRecord.packFields {op : Opcode} {w : Word} {r : Record} (h : ReadsRecord op w r) :
    packFields (opcodeField w) r.reg1 r.operand = canonical op w := by
  unfold ReadsRecord at h
  unfold canonical
  cases hop : op.shape with
  | noOperands | jump =>
    simp only [hop] at h
    exact h ▸ rfl
  | regReg | load | store =>
    simp only [hop] at h
    obtain ⟨d, s, hd, hs, rfl⟩ := h
    simp only [(checkReg_ok ..).mp hd, (checkReg_ok ..).mp hs, setWidth_byte_regIx]
    rfl
  | regImm =>
    simp only [hop] at h
    obtain ⟨d, hd, rfl⟩ := h
    have hoperand : (recordRegImm op d (sext16 (operandField w))).operand = operandField w := setWidth_sext16 _
    have hreg1 : (recordRegImm op d (sext16 (operandField w))).reg1 = reg1Field w := ((checkReg_ok ..).mp hd).symm
    simp only [hoperand, hreg1, packFields_fields]
  | regUnary =>
    simp only [hop] at h
    obtain ⟨d, hd, rfl⟩ := h
    simp only [(checkReg_ok ..).mp hd]
    rfl

/-- What a class reads as immediate is representable. -/
theorem ReadsRecord.immRepresentable {op : Opcode} {w : Word} {r : Record} (h : ReadsRecord op w r) {imm : Word}
    (himm : r.immediate = some imm) : immRepresentable imm = true := by
  unfold ReadsRecord at h
  cases hop : op.shape with
  | noOperands | jump =>
    simp only [hop] at h
    subst h
    exact nomatch himm
  | regReg | load | store =>
    simp only [hop] at h
    obtain ⟨d, s, -, -, rfl⟩ := h
    exact nomatch himm
  | regImm =>
    simp only [hop] at h
    obtain ⟨d, -, rfl⟩ := h
    cases himm
    exact immRepresentable_sext16 _
  | regUnary =>
    simp only [hop] at h
    obtain ⟨d, -, rfl⟩ := h
    exact nomatch himm

theorem decode_lookup {c : Config} {w : Word} {i : Instr} (h : decode c w = .ok i) : c.lookup (opcodeField w) = some i.opcode := by
  obtain ⟨op, hlookup, hfields⟩ := decode_ok.mp h
  rw [hlookup, ← i.record_opcode, (decodeFields_readsRecord hfields).opcode]

theorem decode_wellFormed {c : Config} {w : Word} {i : Instr} (h : decode c w = .ok i) : wellFormed c i = true :=
  (Bool.and_eq_true _ _).mpr
    ⟨i.immOk_iff.mpr fun _ himm => (decode_readsRecord h).immRepresentable himm, Config.lookup_available (decode_lookup h)⟩

/-- Encode gives back a decoded word, with its unread bits cleared (R95). -/
theorem encode_of_decode {c : Config} {w : Word} {i : Instr} (hc : c.valid = true) (h : decode c w = .ok i) :
    encode c i = some (canonical i.opcode w) :=
  encode_eq_some.mpr ⟨decode_wellFormed h, opcodeField w, (Config.lookup_iff_number hc _ _).mp (decode_lookup h),
    (decode_readsRecord h).packFields.symm⟩

/-! ## Unread bits -/

/-- Decoding reads no bit that the canonical word clears (R88). -/
theorem decodeFields_canonical (op : Opcode) (w : Word) : decodeFields op (canonical op w) = decodeFields op w := by
  cases op with
  | nop | halt | clc | stc => rfl
  | movReg | load | store | addReg | subReg | mulReg | divReg | addcReg | subcReg | andReg | orReg | xorReg
  | shlReg | shrReg | sarReg | rolReg | rorReg | cmpReg =>
    simp [decodeFields, canonical, Opcode.shape, decodeTwoRegs]
  | movImm | addImm | subImm | mulImm | divImm | addcImm | subcImm | andImm | orImm | xorImm
  | shlImm | shrImm | sarImm | rolImm | rorImm | cmpImm => rfl
  | notReg => simp [decodeFields, canonical, Opcode.shape, decodeRegUnary]
  | jmp | jz | jnz | jc | jnc | js | jns => simp [decodeFields, canonical, Opcode.shape, decodeJump]

theorem decode_of_lookup {c : Config} {w : Word} {op : Opcode} (h : c.lookup (opcodeField w) = some op) :
    decode c w = decodeFields op w := by
  simp [decode, h]

theorem decode_of_lookup_none {c : Config} {w : Word} (h : c.lookup (opcodeField w) = none) :
    decode c w = .error (.unknownOpcode (opcodeField w)) := by
  simp [decode, h]

/-! ## Unknown opcodes -/

/-- Without `TIER_D` the number of a tier D identity is no key, because no other row has that number (R89). -/
theorem Config.lookup_tierD {c : Config} (hc : c.valid = true) (hd : c.tierD = false) {b : Byte} {op : Opcode} (hop : op.tier = .d)
    (hrow : (b, op) ∈ c.opcodeMap) : c.lookup b = none := by
  have hfull : ({ c with tierD := true } : Config).valid = true := hc
  have hkey : ({ c with tierD := true } : Config).lookup b = some op := Config.lookup_of_mem hfull hrow
  cases hlookup : c.lookup b with
  | none => rfl
  | some op' =>
    obtain ⟨hrow', htier⟩ := Config.mem_opcodes.mp (Config.mem_of_lookup hlookup)
    have hkey' : ({ c with tierD := true } : Config).lookup b = some op' := Config.lookup_of_mem hfull hrow'
    obtain rfl : op = op' := Option.some.inj (hkey.symm.trans hkey')
    simp [hd, hop] at htier

/-- How many of the `n` bytes from `lo` on are no key of the default map. -/
def unknownBytes (lo n : Nat) : Nat :=
  ((List.range n).filter (fun k => (Config.default.lookup (BitVec.ofNat 8 (lo + k))).isNone)).length

theorem unknownBytes_split {lo mid n m total : Nat} (hmid : mid = lo + n) (htotal : total = n + m) :
    unknownBytes lo total = unknownBytes lo n + unknownBytes mid m := by
  subst hmid htotal
  simp [unknownBytes, List.range_add, List.filter_map, Function.comp_def, Nat.add_assoc]

/-- The 46 rows of R90 lie below 0x67: 27 below 0x40 and 19 from there on. -/
theorem unknownBytes_default : unknownBytes 0 256 = 210 := by
  have h0 : unknownBytes 0 64 = 37 := by decide
  have h64 : unknownBytes 64 64 = 45 := by decide
  have h128 : unknownBytes 128 64 = 64 := by decide
  have h192 : unknownBytes 192 64 = 64 := by decide
  have hlower : unknownBytes 0 128 = unknownBytes 0 64 + unknownBytes 64 64 := unknownBytes_split rfl rfl
  have hupper : unknownBytes 128 128 = unknownBytes 128 64 + unknownBytes 192 64 := unknownBytes_split rfl rfl
  have hall : unknownBytes 0 256 = unknownBytes 0 128 + unknownBytes 128 128 := unknownBytes_split rfl rfl
  rw [hall, hlower, hupper, h0, h64, h128, h192]

/-! ## Assembled bytes -/

theorem decodeBytes_bytesOfWord {c : Config} {w : Word} {i : Instr} (h : decode c w = .ok i) (rest : List Byte) :
    decodeBytes c (bytesOfWord w ++ rest) = some (.ok (i, rest)) := by
  simp [bytesOfWord, decodeBytes, h]

end Sys2Proof

namespace Sys2Proof.Machine

open Sys2Proof.Claims

theorem encodeProgram_cons_eq_some {c : Config} {i : Instr} {rest : List Instr} {bytes : List Byte} :
    encodeProgram c (i :: rest) = some bytes ↔
      ∃ w bytes', encode c i = some w ∧ encodeProgram c rest = some bytes' ∧ bytes = bytesOfWord w ++ bytes' := by
  simp only [encodeProgram]
  cases encode c i <;> cases encodeProgram c rest <;> simp [eq_comm]

theorem encodeProgram_length {c : Config} {program : List Instr} {bytes : List Byte} (h : encodeProgram c program = some bytes) :
    bytes.length = 4 * program.length := by
  induction program generalizing bytes with
  | nil =>
    cases h
    rfl
  | cons i rest ih =>
    obtain ⟨w, bytes', -, hrest, rfl⟩ := encodeProgram_cons_eq_some.mp h
    simp [bytesOfWord, ih hrest]
    omega

theorem decodeMany_encodeProgram {c : Config} (hc : c.valid = true) {program : List Instr} {bytes : List Byte}
    (h : encodeProgram c program = some bytes) : decodeMany c program.length bytes = some program := by
  induction program generalizing bytes with
  | nil => rfl
  | cons i rest ih =>
    obtain ⟨w, bytes', hword, hrest, rfl⟩ := encodeProgram_cons_eq_some.mp h
    simp [decodeMany, decodeBytes_bytesOfWord (decode_of_encode hc hword), ih hrest]

/-- Two instructions that encode make their eight bytes. -/
theorem encodeProgram_pair {c : Config} {i j : Instr} {w v : Word} (hi : encode c i = some w) (hj : encode c j = some v) :
    encodeProgram c [i, j] = some (bytesOfWord w ++ bytesOfWord v) := by
  simp [encodeProgram, hi, hj]

theorem Config.default_valid : Config.default.valid = true := by decide

theorem decode_default_of_encode {i : Instr} {w : Word} (h : encode Config.default i = some w) : decode Config.default w = .ok i :=
  decode_of_encode Config.default_valid h

/-- The words of PUSH (R110). -/
theorem encodeProgram_pushSequence (n : RegIx) : encodeProgram Config.default (pushSequence n)
    = some (bytesOfWord 0x23080004#32 ++ bytesOfWord (0x13080000#32 + BitVec.ofNat 32 n.val)) := by
  have hstore : ∀ n : RegIx, encode Config.default (.store spIx n) = some (0x13080000#32 + BitVec.ofNat 32 n.val) := by decide
  exact encodeProgram_pair (by decide) (hstore n)

/-- The words of POP (R110). -/
theorem encodeProgram_popSequence (n : RegIx) : encodeProgram Config.default (popSequence n)
    = some (bytesOfWord (0x12000008#32 + BitVec.ofNat 32 (65536 * n.val)) ++ bytesOfWord 0x21080004#32) := by
  have hload : ∀ n : RegIx, encode Config.default (.load n spIx) = some (0x12000008#32 + BitVec.ofNat 32 (65536 * n.val)) := by decide
  exact encodeProgram_pair (hload n) (by decide)

end Sys2Proof.Machine

namespace Sys2Proof.Proofs

open Sys2Proof.Machine Sys2Proof.Claims

/-- Settles O53: every representable instruction has a word, and its fields are read back. -/
theorem encodeThenDecodeIsIdentity : Obligations.EncodeThenDecodeIsIdentity := by
  intro c i hc hi
  obtain ⟨w, hword⟩ := encode_of_wellFormed hc hi
  exact ⟨w, hword, decode_of_encode hc hword⟩

/-- Settles O54: the record that the class reads encodes to the canonical fields. -/
theorem decodeThenEncodeIsCanonical : Obligations.DecodeThenEncodeIsCanonical := by
  intro c w i hc hdecode
  have hencode := encode_of_decode hc hdecode
  exact ⟨decode_wellFormed hdecode, hencode, fun hcanonical => by rw [hencode, hcanonical]⟩

/-- Settles O55: both words decode as their common canonical word does. -/
theorem decodeIgnoresUnreadBits : Obligations.DecodeIgnoresUnreadBits := by
  intro c w w' op hlookup hcanonical
  have hfield : opcodeField w' = opcodeField w := by
    rw [← opcodeField_canonical op w', ← hcanonical, opcodeField_canonical]
  have hlookup' : c.lookup (opcodeField w') = some op := hfield ▸ hlookup
  rw [decode_of_lookup hlookup, decode_of_lookup hlookup', ← decodeFields_canonical op w, hcanonical, decodeFields_canonical]

/-- Settles O56: the lookup fails, by assumption, by the missing tier D row, or by counting the default map. -/
theorem opcodesOutsideTheMapAreUnknown : Obligations.OpcodesOutsideTheMapAreUnknown := by
  refine ⟨fun c w => decode_of_lookup_none, fun c b op w hc hd hop hrow hfield => ?_, by simpa [unknownBytes] using unknownBytes_default⟩
  subst hfield
  exact decode_of_lookup_none (Config.lookup_tierD hc hd hop hrow)

/-- Settles O59, by induction on the program: each word decodes to its instruction and leaves the bytes after it. -/
theorem assembledBytesDecodeToTheProgram : Obligations.AssembledBytesDecodeToTheProgram := fun _ _ _ hc h =>
  ⟨encodeProgram_length h, decodeMany_encodeProgram hc h⟩

/-- Settles O58: the encoder is evaluated at each row, and its words decode by the round trip. -/
theorem workedWordsDecodeAndEncode : Obligations.WorkedWordsDecodeAndEncode := by
  have hnop : encode Config.default .nop = some 0x00000000#32 := by decide
  have hhalt : encode Config.default .halt = some 0x01000000#32 := by decide
  have hmovOnes : encode Config.default (.movImm 0 0xFFFFFFFF#32) = some 0x1100FFFF#32 := by decide
  have hmov : encode Config.default (.movImm 1 2000#32) = some 0x110107D0#32 := by decide
  have hadd : encode Config.default (.addReg 0 2) = some 0x20000002#32 := by decide
  have haddc : encode Config.default (.addcReg 1 3) = some 0x28010003#32 := by decide
  have hsub : encode Config.default (.subImm 8 4#32) = some 0x23080004#32 := by decide
  have hnot : encode Config.default (.notReg 5) = some 0x36050000#32 := by decide
  have hload : encode Config.default (.load 2 1) = some 0x12020001#32 := by decide
  have hstore : encode Config.default (.store 8 3) = some 0x13080003#32 := by decide
  have hjnz : encode Config.default (.jnz 72#16) = some 0x62000048#32 := by decide
  exact ⟨decode_default_of_encode hnop, hnop, decode_default_of_encode hhalt, hhalt,
    decode_default_of_encode hmovOnes, hmovOnes, decode_default_of_encode hmov, hmov,
    decode_default_of_encode hadd, hadd, decode_default_of_encode haddc, haddc,
    decode_default_of_encode hsub, hsub, decode_default_of_encode hnot, hnot,
    decode_default_of_encode hload, hload, decode_default_of_encode hstore, hstore,
    decode_default_of_encode hjnz, hjnz, fun n => ⟨encodeProgram_pushSequence n, encodeProgram_popSequence n⟩⟩

end Sys2Proof.Proofs
end

section
/-! PROOFS. The flags as the spec's tables read them (spec/41_alu.md sections 1 and 3): Z, S and P of a result, overflow as signed overflow,
the order of two words after a comparison, and the carry chain over double words. -/

namespace Sys2Proof.Machine

open Sys2Proof.Claims

/-! ## Z, S and P -/

/-- The parity of the count of ones in the low byte is the exclusive or of its bits (R140). -/
theorem parity_eq_evenOnes (r : Word) : parity r = evenOnes r := by
  have hbits : ∀ b0 b1 b2 b3 b4 b5 b6 b7 : Bool,
      decide (([b0, b1, b2, b3, b4, b5, b6, b7].countP id) % 2 = 0)
        = !(b0 ^^ b1 ^^ b2 ^^ b3 ^^ b4 ^^ b5 ^^ b6 ^^ b7) := by decide
  have hcount : popcount (BitVec.extractLsb' 0 8 r) = ((List.range 8).map fun i => r.getLsbD i).countP id := by
    rw [popcount, List.countP_map]
    refine List.countP_congr fun i hi => ?_
    simp [List.mem_range.mp hi]
  rw [parity, hcount]
  exact hbits ..

/-- `basic_update` is the flag block of the result, with C and O kept (R140). -/
theorem basicUpdate_eq (r : Word) (f : Flags) : basicUpdate r f = newFlags r f.c f.o := by
  simp only [basicUpdate, newFlags, parity_eq_evenOnes, getLsbD_31_eq_msb]

/-! ## Signed order and signed overflow -/

theorem msb_eq_decide_toNat (v : Word) : v.msb = decide (2 ^ 31 ≤ v.toNat) := BitVec.msb_eq_decide v

/-- The signed value of a word over its number (R8). -/
theorem toInt_eq_ite (v : Word) : v.toInt = if 2 ^ 31 ≤ v.toNat then (v.toNat : Int) - 2 ^ 32 else (v.toNat : Int) := by
  rw [BitVec.toInt_eq_toNat_cond]
  split <;> split <;> omega

/-- Adding overflows where the signed sum is not the signed value of the result. -/
theorem add_overflow_iff (a b : Word) : (a.msb = b.msb ∧ (a + b).msb ≠ a.msb) ↔ a.toInt + b.toInt ≠ (a + b).toInt := by
  have hsum := BitVec.toNat_add a b
  have ha := a.isLt
  have hb := b.isLt
  simp only [msb_eq_decide_toNat, toInt_eq_ite, decide_eq_decide, ne_eq]
  grind

/-- Subtracting overflows where the signed difference is not the signed value of the result. -/
theorem sub_overflow_iff (a b : Word) : (a.msb ≠ b.msb ∧ (a - b).msb ≠ a.msb) ↔ a.toInt - b.toInt ≠ (a - b).toInt := by
  have hdiff := BitVec.toNat_sub a b
  have ha := a.isLt
  have hb := b.isLt
  simp only [msb_eq_decide_toNat, toInt_eq_ite, decide_eq_decide, ne_eq]
  grind

/-- The sign of the difference, corrected by its overflow, decides the signed order (R173). -/
theorem sub_sign_ne_overflow_iff (a b : Word) :
    (a - b).msb ≠ decide (a.msb ≠ b.msb ∧ (a - b).msb ≠ a.msb) ↔ a.toInt < b.toInt := by
  have hdiff := BitVec.toNat_sub a b
  have ha := a.isLt
  have hb := b.isLt
  simp only [msb_eq_decide_toNat, toInt_eq_ite, decide_eq_decide, ne_eq]
  grind

theorem sub_eq_zero_iff (a b : Word) : a - b = 0#32 ↔ a = b := BitVec.sub_eq_iff_eq_add.trans (by simp)

theorem aluCompare_zero (a b : Word) (f : Flags) : (aluCompare a b f).z = true ↔ a = b := by
  simp only [aluCompare_eq, subUpdate_eq, basicUpdate, decide_eq_true_eq, sub_eq_zero_iff]

theorem aluCompare_borrow (a b : Word) (f : Flags) : (aluCompare a b f).c = true ↔ a.toNat < b.toNat := by
  simp only [aluCompare_eq, subUpdate_eq, decide_eq_true_eq]

theorem aluCompare_sign_ne_overflow (a b : Word) (f : Flags) : (aluCompare a b f).s ≠ (aluCompare a b f).o ↔ a.toInt < b.toInt := by
  simp only [aluCompare_eq, subUpdate_eq, basicUpdate_eq, newFlags]
  exact sub_sign_ne_overflow_iff a b

theorem aluAdd_overflow_iff (a b : Word) (f : Flags) : (aluAdd a b f).2.o = true ↔ a.toInt + b.toInt ≠ (aluAdd a b f).1.toInt := by
  rw [aluAdd_overflow, aluAdd_eq]
  exact add_overflow_iff a b

theorem aluSub_overflow_iff (a b : Word) (f : Flags) : (aluSub a b f).2.o = true ↔ a.toInt - b.toInt ≠ (aluSub a b f).1.toInt := by
  simp only [aluSub_eq, subUpdate_eq, decide_eq_true_eq]
  exact sub_overflow_iff a b

/-! ## The carry chain -/

theorem aluAdd_toNat (a b : Word) (f : Flags) : (aluAdd a b f).1.toNat = (a.toNat + b.toNat) % 2 ^ 32 := BitVec.toNat_ofNat ..

theorem aluAddc_toNat (a b : Word) (f : Flags) : (aluAddc a b f).1.toNat = (a.toNat + b.toNat + f.c.toNat) % 2 ^ 32 :=
  BitVec.toNat_ofNat ..

theorem aluAddc_carry (a b : Word) (f : Flags) : (aluAddc a b f).2.c = true ↔ 2 ^ 32 ≤ a.toNat + b.toNat + f.c.toNat := decide_eq_true_iff

theorem aluSubc_toNat (a b : Word) (f : Flags) :
    ((aluSubc a b f).1.toNat : Int) = ((a.toNat : Int) - (b.toNat : Int) - (f.c.toNat : Int)) % 2 ^ 32 := mask32_toNat _

theorem aluSubc_borrow (a b : Word) (f : Flags) : (aluSubc a b f).2.c = true ↔ a.toNat < b.toNat + f.c.toNat := by
  simp only [aluSubc, decide_eq_true_eq, Int.ofNat_eq_natCast]
  omega

/-- A carry bit as a number. -/
theorem toNat_of_iff {c : Bool} {p : Prop} (h : c = true ↔ p) : (p ∧ c.toNat = 1) ∨ (¬ p ∧ c.toNat = 0) := by
  cases c <;> simp_all

end Sys2Proof.Machine

namespace Sys2Proof.Proofs

open Sys2Proof.Machine

/-- Settles O1, by the equation of `basic_update`. -/
theorem basicUpdateSetsZeroSignParity : Obligations.BasicUpdateSetsZeroSignParity := basicUpdate_eq

/-- Settles O4: the sign rule of the flag is the signed overflow. -/
theorem overflowIsSignedOverflow : Obligations.OverflowIsSignedOverflow := fun a b f =>
  ⟨aluAdd_overflow_iff a b f, aluSub_overflow_iff a b f⟩

/-- Settles O5: Z, C and S with O of the difference; each second reading is the negation of a first. -/
theorem compareFlagsDecideOrder : Obligations.CompareFlagsDecideOrder := by
  intro a b f
  have hcarry := aluCompare_borrow a b f
  have hsign := aluCompare_sign_ne_overflow a b f
  refine ⟨aluCompare_zero a b f, hcarry, ?_, hsign, ?_⟩
  · rw [← Nat.not_lt, ← hcarry, Bool.not_eq_true]
  · rw [← Int.not_lt, ← hsign, not_not]

/-- Settles O6: the carry of the low words enters the high words once, as the number 0 or 1. -/
theorem carryChainComputesDoubleWords : Obligations.CarryChainComputesDoubleWords := by
  intro lo hi lo' hi' f
  have hbounds := And.intro (And.intro lo.isLt hi.isLt) (And.intro lo'.isLt hi'.isLt)
  constructor
  · intro p q
    have hlow : p.1.toNat = (lo.toNat + lo'.toNat) % 2 ^ 32 := aluAdd_toNat lo lo' f
    have hhigh : q.1.toNat = (hi.toNat + hi'.toNat + p.2.c.toNat) % 2 ^ 32 := aluAddc_toNat hi hi' p.2
    have hout : q.2.c = true ↔ _ := aluAddc_carry hi hi' p.2
    have hcarry : p.2.c = true ↔ 2 ^ 32 - 1 < lo.toNat + lo'.toNat := aluAdd_carry lo lo' f
    have hbit := toNat_of_iff hcarry
    refine ⟨?_, hout.trans ?_, rfl⟩ <;> omega
  · intro p q
    have hlow : (p.1.toNat : Int) = ((lo.toNat : Int) - lo'.toNat) % 2 ^ 32 := aluSub_toNat lo lo' f
    have hhigh : (q.1.toNat : Int) = ((hi.toNat : Int) - hi'.toNat - p.2.c.toNat) % 2 ^ 32 := aluSubc_toNat hi hi' p.2
    have hout : q.2.c = true ↔ _ := aluSubc_borrow hi hi' p.2
    have hborrow : p.2.c = true ↔ lo.toNat < lo'.toNat := aluSub_borrow lo lo' f
    have hbit := toNat_of_iff hborrow
    refine ⟨?_, hout.trans ?_, rfl⟩ <;> omega

end Sys2Proof.Proofs
end

section
/-! PROOFS. The instructions complete: each ALU operation as its result and the flag block of the statements, and each instruction with its whole
next state (spec/42_system.md to spec/48_jumps.md). -/

namespace Sys2Proof.Machine

open Sys2Proof.Claims

/-! ## The ALU operations as a result and a flag block -/

theorem aluAdd_flags (a b : Word) (f : Flags) : aluAdd a b f = (a + b, addFlags a b) := by
  rw [aluAdd_eq, addUpdate_eq, basicUpdate_eq]
  rfl

theorem subUpdate_flags (a b : Word) (f : Flags) : subUpdate a b (a - b) f = subFlags a b := by
  rw [subUpdate_eq, basicUpdate_eq]
  rfl

theorem aluSub_flags (a b : Word) (f : Flags) : aluSub a b f = (a - b, subFlags a b) := by
  rw [aluSub_eq, subUpdate_flags]

theorem aluCompare_flags (a b : Word) (f : Flags) : aluCompare a b f = subFlags a b := by
  rw [aluCompare_eq, subUpdate_flags]

theorem aluMul_flags (a b : Word) (f : Flags) : aluMul a b f = (a * b, mulFlags a b) := by
  simp only [aluMul, multiplicationUpdate, BitVec.ofNat_mul, BitVec.ofNat_toNat, BitVec.setWidth_eq, basicUpdate_eq]
  rfl

theorem divisionUpdate_flags (q : Word) (f : Flags) : divisionUpdate q f = newFlags q false false := by
  rw [divisionUpdate, basicUpdate_eq]
  rfl

theorem aluAddc_flags (a b : Word) (f : Flags) : aluAddc a b f = (a + b + BitVec.ofNat 32 f.c.toNat, addcFlags a b f) := by
  simp only [aluAddc, BitVec.ofNat_add, BitVec.ofNat_toNat, BitVec.setWidth_eq, basicUpdate_eq]
  rfl

theorem aluSubc_flags (a b : Word) (f : Flags) : aluSubc a b f = (a - b - BitVec.ofNat 32 f.c.toNat, subcFlags a b f) := by
  have hresult : (aluSubc a b f).1 = a - b - BitVec.ofNat 32 f.c.toNat := by
    apply BitVec.eq_of_toNat_eq
    have hmask := aluSubc_toNat a b f
    have ha := a.isLt
    have hb := b.isLt
    have hc := f.c.toNat_le
    simp only [BitVec.toNat_sub, BitVec.toNat_ofNat]
    omega
  have hborrow : (aluSubc a b f).2.c = decide (a.toNat < b.toNat + f.c.toNat) := by
    rw [Bool.eq_iff_iff, aluSubc_borrow, decide_eq_true_eq]
  have hflags : (aluSubc a b f).2 = newFlags (aluSubc a b f).1 (aluSubc a b f).2.c f.o := by
    simp only [aluSubc, basicUpdate_eq]
    rfl
  exact Prod.ext hresult (by rw [hflags, hresult, hborrow]; rfl)

theorem logicalUpdate_flags (r : Word) (f : Flags) : logicalUpdate r f = newFlags r false false := by
  rw [logicalUpdate, basicUpdate_eq]
  rfl

theorem aluAnd_flags (a b : Word) (f : Flags) : aluAnd a b f = (a &&& b, newFlags (a &&& b) false false) := by
  rw [aluAnd, logicalUpdate_flags]

theorem aluOr_flags (a b : Word) (f : Flags) : aluOr a b f = (a ||| b, newFlags (a ||| b) false false) := by
  rw [aluOr, logicalUpdate_flags]

theorem aluXor_flags (a b : Word) (f : Flags) : aluXor a b f = (a ^^^ b, newFlags (a ^^^ b) false false) := by
  rw [aluXor, logicalUpdate_flags]

theorem aluNot_flags (a : Word) (f : Flags) : aluNot a f = (~~~a, newFlags (~~~a) false false) := by
  have hnot : a ^^^ 0xFFFFFFFF#32 = ~~~a := aluNot_fst a f
  rw [aluNot, logicalUpdate_flags, hnot]

/-! ## Shifts and rotates -/

theorem shiftUpdate_flags (r : Word) (out : Bool) (f : Flags) : shiftUpdate r out f = newFlags r out false := by
  rw [shiftUpdate, basicUpdate_eq]
  rfl

theorem shiftLeftUpdate_flags (a r : Word) (count : Nat) (f : Flags) :
    shiftLeftUpdate a count r f = shiftFlags r count (a.getLsbD (32 - count)) f := by
  rw [shiftLeftUpdate, basicUpdate_eq, shiftUpdate_flags, shiftFlags]

theorem shiftRightUpdate_flags (a r : Word) (count : Nat) (f : Flags) :
    shiftRightUpdate a count r f = shiftFlags r count (a.getLsbD (count - 1)) f := by
  rw [shiftRightUpdate, basicUpdate_eq, shiftUpdate_flags, shiftFlags]

theorem shiftLeft_eq_ofNat (a : Word) (c : Nat) : a <<< c = BitVec.ofNat 32 (a.toNat * 2 ^ c) := by
  apply BitVec.eq_of_toNat_eq
  rw [BitVec.toNat_shiftLeft, Nat.shiftLeft_eq, BitVec.toNat_ofNat]

theorem ushiftRight_eq_ofNat (a : Word) (c : Nat) : a >>> c = BitVec.ofNat 32 (a.toNat / 2 ^ c) := by
  rw [← Nat.shiftRight_eq_div_pow, ← BitVec.toNat_ushiftRight, BitVec.ofNat_toNat, BitVec.setWidth_eq]

theorem sshiftRight_eq_ofInt (a : Word) (c : Nat) : BitVec.sshiftRight a c = BitVec.ofInt 32 (a.toInt / 2 ^ c) := by
  rw [BitVec.sshiftRight, Int.shiftRight_eq_div_pow]
  rfl

theorem aluShl_flags (a b : Word) (f : Flags) : aluShl a b f =
    (BitVec.ofNat 32 (a.toNat * 2 ^ (b.toNat % 32)),
      shiftFlags (BitVec.ofNat 32 (a.toNat * 2 ^ (b.toNat % 32))) (b.toNat % 32) (a.getLsbD (32 - b.toNat % 32)) f) := by
  simp only [aluShl, effectiveCount_eq_mod, shiftLeftUpdate_flags, shiftLeft_eq_ofNat]

theorem aluShr_flags (a b : Word) (f : Flags) : aluShr a b f =
    (BitVec.ofNat 32 (a.toNat / 2 ^ (b.toNat % 32)),
      shiftFlags (BitVec.ofNat 32 (a.toNat / 2 ^ (b.toNat % 32))) (b.toNat % 32) (a.getLsbD (b.toNat % 32 - 1)) f) := by
  simp only [aluShr, effectiveCount_eq_mod, shiftRightUpdate_flags, ushiftRight_eq_ofNat]

theorem sarCount_eq (masks : Bool) (b : Word) : sarCount masks b = if masks = true then b.toNat % 32 else b.toNat := by
  rw [sarCount, effectiveCount_eq_mod]

theorem aluSar_flags (masks : Bool) (a b : Word) (f : Flags) : aluSar masks a b f =
    (BitVec.ofInt 32 (a.toInt / 2 ^ sarCount masks b),
      shiftFlags (BitVec.ofInt 32 (a.toInt / 2 ^ sarCount masks b)) (sarCount masks b) (a.getLsbD (sarCount masks b - 1)) f) := by
  simp only [aluSar, shiftRightUpdate_flags, sshiftRight_eq_ofInt]

theorem aluRol_of_zero {b : Word} (h : b.toNat % 32 = 0) (a : Word) (f : Flags) : aluRol a b f = (a, f) := by
  simp [aluRol, effectiveCount_eq_mod, h]

theorem aluRor_of_zero {b : Word} (h : b.toNat % 32 = 0) (a : Word) (f : Flags) : aluRor a b f = (a, f) := by
  simp [aluRor, effectiveCount_eq_mod, h]

theorem aluRol_flags {b : Word} (h : b.toNat % 32 ≠ 0) (a : Word) (f : Flags) : aluRol a b f =
    (a.rotateLeft (b.toNat % 32), newFlags (a.rotateLeft (b.toNat % 32)) ((a.rotateLeft (b.toNat % 32)).getLsbD 0) false) := by
  simp only [aluRol, effectiveCount_eq_mod, if_neg h, rotateUpdate, shiftUpdate_flags, BitVec.rotateLeft_def, Nat.mod_mod]

theorem aluRor_flags {b : Word} (h : b.toNat % 32 ≠ 0) (a : Word) (f : Flags) : aluRor a b f =
    (a.rotateRight (b.toNat % 32), newFlags (a.rotateRight (b.toNat % 32)) ((a.rotateRight (b.toNat % 32)).getLsbD 31) false) := by
  simp only [aluRor, effectiveCount_eq_mod, if_neg h, rotateUpdate, shiftUpdate_flags, BitVec.rotateRight_def, Nat.mod_mod]

/-! ## The handlers -/

/-- A two-operand handler writes the result and the flags of its operation. -/
theorem binaryOp_wrote {op : Word → Word → Flags → Word × Flags} {dest : RegIx} {b r : Word} {f : Flags} {s : State}
    (h : op (State.x s dest) b s.flags = (r, f)) : binaryOp op dest b s = .next (wrote s dest r f) := by
  rw [binaryOp_eq, h]
  rfl

/-- Writing a register and the flags back as they are only counts. -/
theorem wrote_self (s : State) (dest : RegIx) : wrote s dest (State.x s dest) s.flags = counted s := by
  simp [wrote, counted, State.x]

theorem shl_shiftedLeft (dest : RegIx) (b : Word) (s : State) :
    binaryOp aluShl dest b s = .next (shiftedLeft s dest (b.toNat % 32)) := binaryOp_wrote (aluShl_flags ..)

theorem shr_shiftedRight (dest : RegIx) (b : Word) (s : State) :
    binaryOp aluShr dest b s = .next (shiftedRight s dest (b.toNat % 32)) := binaryOp_wrote (aluShr_flags ..)

theorem sar_shiftedArith (dest : RegIx) (b : Word) (s : State) : binaryOp (aluSar s.params.sarMasksCount) dest b s
    = .next (shiftedArith s dest (if s.params.sarMasksCount = true then b.toNat % 32 else b.toNat)) := by
  rw [← sarCount_eq]
  exact binaryOp_wrote (aluSar_flags ..)

theorem rol_rotatedLeft (dest : RegIx) (b : Word) (s : State) :
    binaryOp aluRol dest b s = .next (rotatedLeft s dest (b.toNat % 32)) := by
  by_cases h : b.toNat % 32 = 0
  · rw [binaryOp_wrote (aluRol_of_zero h ..), wrote_self, rotatedLeft, if_pos h]
  · rw [binaryOp_wrote (aluRol_flags h ..), rotatedLeft, if_neg h]

theorem ror_rotatedRight (dest : RegIx) (b : Word) (s : State) :
    binaryOp aluRor dest b s = .next (rotatedRight s dest (b.toNat % 32)) := by
  by_cases h : b.toNat % 32 = 0
  · rw [binaryOp_wrote (aluRor_of_zero h ..), wrote_self, rotatedRight, if_pos h]
  · rw [binaryOp_wrote (aluRor_flags h ..), rotatedRight, if_neg h]

theorem divideOp_zero (dest : RegIx) (s : State) : divideOp dest 0#32 s = .next (faultTaken .divisionByZero s) := by
  rw [divideOp_eq, if_pos rfl]
  rfl

theorem divideOp_wrote {b : Word} (hb : b ≠ 0#32) (dest : RegIx) (s : State) :
    divideOp dest b s = .next (wrote s dest (State.x s dest / b) (newFlags (State.x s dest / b) false false)) := by
  rw [divideOp_eq, if_neg hb, divisionUpdate_flags, ← BitVec.udiv_def]
  rfl

theorem compareOp_flags (dest : RegIx) (b : Word) (s : State) :
    compareOp dest b s = .next { counted s with flags := subFlags (State.x s dest) b } := by
  rw [compareOp_eq, aluCompare_flags]
  rfl

theorem jumpIf_jumped (taken : Bool) (addr : Half) (s : State) : jumpIf taken addr s = .next (jumped s addr taken) := by
  rw [jumpIf_eq, jumpTarget_eq_ofNat]
  rfl

/-! ## LOAD and STORE -/

theorem exec_load_fault {base : RegIx} {s : State} {f : Fault} (h : wordCheck s.params.memSize (indirectAddress base s) = some f)
    (dest : RegIx) : exec (.load dest base) s = .next (faultTaken f s) := by
  have hread : readWord (indirectAddress base s) s = .error f := (readWord_error ..).mpr h
  simp [exec, execLoad, hread, raiseFault_eq_faultTaken]

theorem exec_store_fault {base : RegIx} {s : State} {f : Fault} (h : wordCheck s.params.memSize (indirectAddress base s) = some f)
    (src : RegIx) : exec (.store base src) s = .next (faultTaken f s) := by
  have hwrite : writeWord (indirectAddress base s) (State.x s src) s = .error f := (writeWord_error ..).mpr h
  simp [exec, execStore, hwrite, raiseFault_eq_faultTaken]

theorem exec_load_wrote {base : RegIx} {s : State} (hfits : indirectAddress base s + 4 ≤ s.params.memSize)
    (haligned : indirectAddress base s % 4 = 0) (dest : RegIx) :
    exec (.load dest base) s = .next (wrote s dest (Memory.word s.mem (indirectAddress base s)) s.flags) := by
  have hread : readWord (indirectAddress base s) s = .ok (Memory.word s.mem (indirectAddress base s)) :=
    (readWord_ok ..).mpr ⟨⟨hfits, haligned⟩, rfl⟩
  simp only [exec, execLoad, hread]
  rfl

/-- The state counted on, with a word stored. -/
def stored (s : State) (addr : Nat) (v : Word) : State := { counted s with mem := Memory.setWord s.mem addr v }

theorem exec_store_stored {base : RegIx} {s : State} (hfits : indirectAddress base s + 4 ≤ s.params.memSize)
    (haligned : indirectAddress base s % 4 = 0) (src : RegIx) :
    exec (.store base src) s = .next (stored s (indirectAddress base s) (State.x s src)) := by
  have hwrite : writeWord (indirectAddress base s) (State.x s src) s
      = .ok { s with mem := Memory.setWord s.mem (indirectAddress base s) (State.x s src) } :=
    (writeWord_ok ..).mpr ⟨⟨hfits, haligned⟩, rfl⟩
  simp only [exec, execStore, hwrite]
  rfl

/-- The word read is the number its bytes make (R51). -/
theorem Memory.word_eq_ofNat (m : Memory) (a : Nat) : Memory.word m a = BitVec.ofNat 32 (wordAt m a) := by
  rw [← Memory.word_toNat, BitVec.ofNat_toNat, BitVec.setWidth_eq]

end Sys2Proof.Machine

namespace Sys2Proof.Proofs

open Sys2Proof.Machine Sys2Proof.Claims

/-- Settles O7: both handlers retire at once. -/
theorem nopAndHaltComplete : Obligations.NopAndHaltComplete := fun s =>
  ⟨retire_eq_counted s, retire_eq_counted { s with halted := true, running := false }⟩

/-- Settles O8: both handlers write the flags and retire. -/
theorem carryInstructionsComplete : Obligations.CarryInstructionsComplete := fun s =>
  ⟨retire_eq_counted (State.setFlags s (clearCarry s.flags)), retire_eq_counted (State.setFlags s (setCarry s.flags))⟩

/-- Settles O9: both handlers write the destination and retire. -/
theorem movesComplete : Obligations.MovesComplete := fun s dest src imm =>
  ⟨retire_eq_counted (State.setX s dest (State.x s src)), retire_eq_counted (State.setX s dest imm)⟩

/-- Settles O10: the word read is the number of its four bytes. -/
theorem loadCompletes : Obligations.LoadCompletes := by
  intro s dest base hfits haligned
  rw [exec_load_wrote hfits haligned, Memory.word_eq_ofNat]

/-- Settles O11: the bytes of the stored word inside the four, the frame of the write outside. -/
theorem storeCompletes : Obligations.StoreCompletes := by
  intro s base src hwf hfits haligned
  refine ⟨_, exec_store_stored hfits haligned src, rfl, fun k hk => ?_, fun a ha => Memory.byte_setWord_other _ _ ha⟩
  exact (Memory.byte_setWord_add hwf _ _ hk).trans (byteOfWord_eq_ofNat ..)

/-- Settles O12, by the equations of the three operations. -/
theorem addSubMulComplete : Obligations.AddSubMulComplete := fun _ _ _ _ =>
  ⟨binaryOp_wrote (aluAdd_flags ..), binaryOp_wrote (aluAdd_flags ..), binaryOp_wrote (aluSub_flags ..),
   binaryOp_wrote (aluSub_flags ..), binaryOp_wrote (aluMul_flags ..), binaryOp_wrote (aluMul_flags ..)⟩

/-- Settles O13, by the quotient of the DIV handler. -/
theorem divCompletes : Obligations.DivCompletes := fun s dest _ _ =>
  ⟨fun hsrc => divideOp_wrote hsrc dest s, fun himm => divideOp_wrote himm dest s⟩

/-- Settles O14: the zero divisor before anything is computed, the range check before the alignment check. -/
theorem executeFaultsAreTaken : Obligations.ExecuteFaultsAreTaken := by
  intro s dest src base
  refine ⟨fun hsrc => ?_, divideOp_zero dest s, fun hrange => ?_⟩
  · exact (congrArg (divideOp dest · s) hsrc).trans (divideOp_zero dest s)
  · have hcheck : wordCheck s.params.memSize (indirectAddress base s) = some (.outOfRange (indirectAddress base s)) :=
      (wordCheck_eq_some ..).mpr (.inl ⟨hrange, rfl⟩)
    exact ⟨exec_load_fault hcheck dest, exec_store_fault hcheck src⟩

/-- Settles O15, by the equations of the two carry operations. -/
theorem carryChainInstructionsComplete : Obligations.CarryChainInstructionsComplete := fun _ _ _ _ =>
  ⟨binaryOp_wrote (aluAddc_flags ..), binaryOp_wrote (aluAddc_flags ..), binaryOp_wrote (aluSubc_flags ..),
   binaryOp_wrote (aluSubc_flags ..)⟩

/-- Settles O16; NOT is the one handler that reads no second operand. -/
theorem logicInstructionsComplete : Obligations.LogicInstructionsComplete := by
  intro s dest src imm
  refine ⟨binaryOp_wrote (aluAnd_flags ..), binaryOp_wrote (aluAnd_flags ..), binaryOp_wrote (aluOr_flags ..),
    binaryOp_wrote (aluOr_flags ..), binaryOp_wrote (aluXor_flags ..), binaryOp_wrote (aluXor_flags ..), ?_⟩
  simp only [exec, execNotReg, aluNot_flags]
  rfl

/-- Settles O17, each shift by the equation of its operation. -/
theorem shiftInstructionsComplete : Obligations.ShiftInstructionsComplete := fun s dest src imm =>
  ⟨shl_shiftedLeft dest (State.x s src) s, shl_shiftedLeft dest imm s, shr_shiftedRight dest (State.x s src) s,
   shr_shiftedRight dest imm s, sar_shiftedArith dest (State.x s src) s, sar_shiftedArith dest imm s⟩

/-- Settles O18, each rotate by its count, zero or not. -/
theorem rotateInstructionsComplete : Obligations.RotateInstructionsComplete := fun s dest src imm =>
  ⟨rol_rotatedLeft dest (State.x s src) s, rol_rotatedLeft dest imm s, ror_rotatedRight dest (State.x s src) s,
   ror_rotatedRight dest imm s⟩

/-- Settles O19, by the flags of the compare handler. -/
theorem comparesComplete : Obligations.ComparesComplete := fun s dest src imm =>
  ⟨compareOp_flags dest (State.x s src) s, compareOp_flags dest imm s⟩

/-- Settles O20, each jump by its condition. -/
theorem jumpsComplete : Obligations.JumpsComplete := fun s addr =>
  ⟨jumpIf_jumped true addr s, jumpIf_jumped _ addr s, jumpIf_jumped _ addr s, jumpIf_jumped _ addr s, jumpIf_jumped _ addr s,
   jumpIf_jumped _ addr s, jumpIf_jumped _ addr s⟩

end Sys2Proof.Proofs
end

section
/-! PROOFS. The step (spec/40_cycle.md, spec/60_exceptions.md): what it runs and which fault it reports, the order of the checks, a clean run, and
the fields no step reads. -/

namespace Sys2Proof.Machine

open Sys2Proof.Safety Sys2Proof.Claims

/-! ## What a step runs or reports -/

theorem step_of_not_fetchable {s : State} (hs : s.halted = false) (hbad : ¬ Fetchable s) :
    step s = .next (faultTaken (.invalidInstruction s.pc.toNat) s) := by
  have hfetch : fetchWord s = .error (.invalidInstruction s.pc.toNat) := (fetchWord_error ..).mpr ⟨hbad, rfl⟩
  simp [step, hs, hfetch, raiseFault_eq_faultTaken]

theorem step_of_decode_error {s : State} {e : DecodeError} (hs : s.halted = false) (hgood : Fetchable s)
    (hdecode : decode s.params (Memory.word s.mem s.pc.toNat) = .error e) :
    step s = .next (faultTaken (decodeFault e) (fetched s)) := by
  have hfetch : fetchWord s = .ok (Memory.word s.mem s.pc.toNat) := (fetchWord_ok ..).mpr ⟨hgood, rfl⟩
  simp only [step, hs, hfetch, hdecode]
  rfl

theorem stepReport_of_next {s t : State} (h : step s = .next t) : stepReport s = report s t := by
  rw [stepReport, stepped_of_next h]

theorem stepReport_of_fault {s u : State} {f : Fault} (hs : s.halted = false) (h : step s = .next (faultTaken f u)) :
    stepReport s = .fault f :=
  (stepReport_of_next h).trans (report_of_faulted hs rfl)

theorem stepReport_of_decode_error {s : State} {e : DecodeError} (hs : s.halted = false) (hgood : Fetchable s)
    (hdecode : decode s.params (Memory.word s.mem s.pc.toNat) = .error e) : stepReport s = .fault (decodeFault e) :=
  stepReport_of_fault hs (step_of_decode_error hs hgood hdecode)

theorem stepReport_of_halted {s : State} (h : s.halted = true) : stepReport s = .idle :=
  (stepReport_of_next (step_of_halted h)).trans (report_of_halted s h)

end Sys2Proof.Machine

namespace Sys2Proof

/-! ## The order of the register checks -/

theorem checkReg_error {r : Byte} (h : 8 < r.toNat) : checkReg r = .error (.invalidRegister r) := by
  rw [checkReg, dif_neg (by omega)]

theorem checkReg_of_le {r : Byte} (h : r.toNat ≤ 8) : ∃ i, checkReg r = .ok i :=
  ⟨⟨r.toNat, by omega⟩, by rw [checkReg, dif_pos (by omega)]⟩

/-- A class that reads `reg1` reports it first, whatever the second field holds (decision D9). -/
theorem decodeFields_bad_reg1 {op : Opcode} {w : Word} (hno : op.shape ≠ .noOperands) (hjump : op.shape ≠ .jump)
    (h : 8 < (reg1Field w).toNat) : decodeFields op w = .error (.invalidRegister (reg1Field w)) := by
  have hcheck := checkReg_error h
  cases op with
  | nop | halt | clc | stc => exact absurd rfl hno
  | jmp | jz | jnz | jc | jnc | js | jns => exact absurd rfl hjump
  | movReg | load | store | addReg | subReg | mulReg | divReg | addcReg | subcReg | andReg | orReg | xorReg
  | shlReg | shrReg | sarReg | rolReg | rorReg | cmpReg => simp [decodeFields, decodeTwoRegs, hcheck]
  | movImm | addImm | subImm | mulImm | divImm | addcImm | subcImm | andImm | orImm | xorImm
  | shlImm | shrImm | sarImm | rolImm | rorImm | cmpImm => simp [decodeFields, decodeRegImm, hcheck]
  | notReg => simp [decodeFields, decodeRegUnary, hcheck]

theorem decodeTwoRegs_bad_reg2 (mk : RegIx → RegIx → Instr) {w : Word} (h1 : (reg1Field w).toNat ≤ 8) (h2 : 8 < (reg2Field w).toNat) :
    decodeTwoRegs mk w = .error (.invalidRegister (reg2Field w)) := by
  obtain ⟨r1, hreg1⟩ := checkReg_of_le h1
  simp [decodeTwoRegs, hreg1, checkReg_error h2]

/-- A class with two register fields reports the second where the first is good. -/
theorem decodeFields_bad_reg2 {op : Opcode} {w : Word} (hop : op.shape = .regReg ∨ op.shape = .load ∨ op.shape = .store)
    (h1 : (reg1Field w).toNat ≤ 8) (h2 : 8 < (reg2Field w).toNat) :
    decodeFields op w = .error (.invalidRegister (reg2Field w)) := by
  cases op with
  | movReg | load | store | addReg | subReg | mulReg | divReg | addcReg | subcReg | andReg | orReg | xorReg
  | shlReg | shrReg | sarReg | rolReg | rorReg | cmpReg => exact decodeTwoRegs_bad_reg2 _ h1 h2
  | nop | halt | clc | stc | jmp | jz | jnz | jc | jnc | js | jns | notReg
  | movImm | addImm | subImm | mulImm | divImm | addcImm | subcImm | andImm | orImm | xorImm
  | shlImm | shrImm | sarImm | rolImm | rorImm | cmpImm => simp [Opcode.shape] at hop

end Sys2Proof

namespace Sys2Proof.Machine

open Sys2Proof.Safety Sys2Proof.Claims

/-! ## A clean run -/

theorem performAll_steps_halted (n : Nat) {s : State} (h : s.halted = true) :
    (performAll (List.replicate n .step) s).halted = true := by
  induction n generalizing s with
  | zero => exact h
  | succ n ih => exact ih (perform_keeps_halted nofun h)

/-- A step of a core that is not halted executes an instruction or faults. -/
theorem stepReport_cases {s : State} (hs : s.halted = false) : stepReport s = .executed ∨ ∃ f, stepReport s = .fault f := by
  unfold stepReport report
  rw [hs]
  cases (stepped s).faulted with
  | none => exact .inl rfl
  | some f => exact .inr ⟨f, rfl⟩

theorem stepped_cycleCount {s : State} (h : stepReport s = .executed) : (stepped s).cycleCount = s.cycleCount + 1 := by
  have hcount := step_cycleCount (step_stepped s)
  rwa [if_pos (stepReport_of_next (step_stepped s) ▸ h)] at hcount

theorem cleanRun_cycleCount (n : Nat) {s : State} (hsafe : SafeFor n s) (hend : (performAll (List.replicate n .step) s).halted = false) :
    (performAll (List.replicate n .step) s).cycleCount = s.cycleCount + n := by
  induction n generalizing s with
  | zero => rfl
  | succ n ih =>
    obtain ⟨hclean, hrest⟩ := hsafe
    have hs : s.halted = false := by
      by_contra hhalted
      exact absurd (performAll_steps_halted (n + 1) (eq_true_of_ne_false hhalted)) (by simp [hend])
    have hexecuted : stepReport s = .executed := (stepReport_cases hs).resolve_right fun ⟨f, hf⟩ => hclean f hf
    have hcount : (performAll (List.replicate n .step) (stepped s)).cycleCount = (stepped s).cycleCount + n := ih hrest hend
    rw [stepped_cycleCount hexecuted] at hcount
    exact hcount.trans (by omega)

/-! ## A store over the next instruction -/

/-- The word at `pc` after a store there is the stored word. -/
theorem stored_word {s : State} (hwf : Memory.wf s.mem = true) (addr : Nat) (v : Word) :
    Memory.word (stored s addr v).mem addr = v := Memory.word_setWord hwf addr v

/-! ## The fields no step reads -/

/-- Two flag blocks agree on what an instruction can read: O and P are read by none. -/
def FlagsAgree (f f' : Flags) : Prop := f.z = f'.z ∧ f.s = f'.s ∧ f.c = f'.c

/-- Two operations give agreeing answers from agreeing flags. -/
def OpsAgree (op op' : Word → Word → Flags → Word × Flags) : Prop :=
  ∀ a b f f', FlagsAgree f f' → (op a b f).1 = (op' a b f').1 ∧ FlagsAgree (op a b f).2 (op' a b f').2

theorem newFlags_agree {f f' : Flags} (h : FlagsAgree f f') (r : Word) (o o' : Bool) :
    FlagsAgree (newFlags r f.c o) (newFlags r f'.c o') := ⟨rfl, rfl, h.2.2⟩

theorem newFlags_agree_same (r : Word) (c o o' : Bool) : FlagsAgree (newFlags r c o) (newFlags r c o') := ⟨rfl, rfl, rfl⟩

theorem shiftFlags_agree {f f' : Flags} (h : FlagsAgree f f') (r : Word) (count : Nat) (out : Bool) :
    FlagsAgree (shiftFlags r count out f) (shiftFlags r count out f') := by
  unfold shiftFlags
  split
  · exact newFlags_agree h r _ _
  · exact newFlags_agree_same r out _ _

/-- An operation whose answer does not depend on the flags. -/
theorem OpsAgree.of_eq {op : Word → Word → Flags → Word × Flags} (h : ∀ a b f f', op a b f = op a b f') : OpsAgree op op :=
  fun a b f f' _ => h a b f f' ▸ ⟨rfl, rfl, rfl, rfl⟩

theorem aluAdd_agree : OpsAgree aluAdd aluAdd := .of_eq fun _ _ _ _ => by simp only [aluAdd_flags]
theorem aluSub_agree : OpsAgree aluSub aluSub := .of_eq fun _ _ _ _ => by simp only [aluSub_flags]
theorem aluMul_agree : OpsAgree aluMul aluMul := .of_eq fun _ _ _ _ => by simp only [aluMul_flags]
theorem aluAnd_agree : OpsAgree aluAnd aluAnd := .of_eq fun _ _ _ _ => by simp only [aluAnd_flags]
theorem aluOr_agree : OpsAgree aluOr aluOr := .of_eq fun _ _ _ _ => by simp only [aluOr_flags]
theorem aluXor_agree : OpsAgree aluXor aluXor := .of_eq fun _ _ _ _ => by simp only [aluXor_flags]

/-- The carry operations read C and keep O, which is not compared. -/
theorem aluAddc_agree : OpsAgree aluAddc aluAddc := by
  intro a b f f' ⟨_, _, hc⟩
  simp only [aluAddc_flags, addcFlags, hc]
  exact ⟨trivial, newFlags_agree_same ..⟩

theorem aluSubc_agree : OpsAgree aluSubc aluSubc := by
  intro a b f f' ⟨_, _, hc⟩
  simp only [aluSubc_flags, subcFlags, hc]
  exact ⟨trivial, newFlags_agree_same ..⟩

theorem aluShl_agree : OpsAgree aluShl aluShl := by
  intro a b f f' h
  simp only [aluShl_flags]
  exact ⟨trivial, shiftFlags_agree h ..⟩

theorem aluShr_agree : OpsAgree aluShr aluShr := by
  intro a b f f' h
  simp only [aluShr_flags]
  exact ⟨trivial, shiftFlags_agree h ..⟩

theorem aluSar_agree {masks masks' : Bool} (hmasks : masks = masks') : OpsAgree (aluSar masks) (aluSar masks') := by
  intro a b f f' h
  simp only [hmasks, aluSar_flags]
  exact ⟨trivial, shiftFlags_agree h ..⟩

theorem aluRol_agree : OpsAgree aluRol aluRol := by
  intro a b f f' h
  by_cases hcount : b.toNat % 32 = 0
  · simp only [aluRol_of_zero hcount]
    exact ⟨trivial, h⟩
  · simp only [aluRol_flags hcount]
    exact ⟨trivial, newFlags_agree_same ..⟩

theorem aluRor_agree : OpsAgree aluRor aluRor := by
  intro a b f f' h
  by_cases hcount : b.toNat % 32 = 0
  · simp only [aluRor_of_zero hcount]
    exact ⟨trivial, h⟩
  · simp only [aluRor_flags hcount]
    exact ⟨trivial, newFlags_agree_same ..⟩

end Sys2Proof.Machine

namespace Sys2Proof.Claims

open Sys2Proof.Machine

variable {s s' : State}

theorem AgreeForStep.flags (h : AgreeForStep s s') : FlagsAgree s.flags s'.flags :=
  have ⟨_, _, hz, hsign, hc, _⟩ := h
  ⟨hz, hsign, hc⟩

theorem AgreeForStep.x (h : AgreeForStep s s') (r : RegIx) : State.x s r = State.x s' r := by
  have ⟨hregs, _⟩ := h
  rw [State.x, State.x, hregs]

theorem AgreeForStep.setX (h : AgreeForStep s s') (r : RegIx) {v v' : Word} (hv : v = v') :
    AgreeForStep (State.setX s r v) (State.setX s' r v') := by
  have ⟨hregs, hrest⟩ := h
  exact ⟨by rw [setX_regs, setX_regs, hregs, hv], hrest⟩

theorem AgreeForStep.setFlags (h : AgreeForStep s s') {f f' : Flags} (hf : FlagsAgree f f') :
    AgreeForStep (State.setFlags s f) (State.setFlags s' f') :=
  have ⟨hregs, hpc, _, _, _, hrest⟩ := h
  have ⟨hz, hsign, hc⟩ := hf
  ⟨hregs, hpc, hz, hsign, hc, hrest⟩

theorem AgreeForStep.setPc (h : AgreeForStep s s') (v : Word) : AgreeForStep (State.setPc s v) (State.setPc s' v) :=
  have ⟨hregs, _, hrest⟩ := h
  ⟨hregs, rfl, hrest⟩

theorem AgreeForStep.setMem (h : AgreeForStep s s') (m : Memory) : AgreeForStep { s with mem := m } { s' with mem := m } :=
  have ⟨hregs, hpc, hz, hsign, hc, hhalted, _, hparams⟩ := h
  ⟨hregs, hpc, hz, hsign, hc, hhalted, rfl, hparams⟩

theorem AgreeForStep.halt (h : AgreeForStep s s') :
    AgreeForStep { s with halted := true, running := false } { s' with halted := true, running := false } :=
  have ⟨hregs, hpc, hz, hsign, hc, _, hrest⟩ := h
  ⟨hregs, hpc, hz, hsign, hc, rfl, hrest⟩

theorem AgreeForStep.afterFetch (h : AgreeForStep s s') (w : Word) : AgreeForStep (afterFetch w s) (afterFetch w s') :=
  have ⟨hregs, hpc, hrest⟩ := h
  ⟨hregs, congrArg (· + 4) hpc, hrest⟩

theorem AgreeForStep.readWord (h : AgreeForStep s s') (addr : Nat) : readWord addr s = readWord addr s' := by
  have ⟨_, _, _, _, _, _, hmem, hparams⟩ := h
  rw [Machine.readWord, Machine.readWord, hmem, hparams]

theorem AgreeForStep.fetchWord (h : AgreeForStep s s') : fetchWord s = fetchWord s' := by
  have ⟨_, hpc, _⟩ := h
  rw [Machine.fetchWord, Machine.fetchWord, hpc, h.readWord]

end Sys2Proof.Claims

namespace Sys2Proof.Machine

open Sys2Proof.Claims

variable {s s' : State}

/-- Two answers are the same fault taken, or both the retirement, in agreeing states. -/
def ResultsAgree (r r' : Result) : Prop :=
  ∃ t t', r = .next t ∧ r' = .next t' ∧ AgreeForStep t t' ∧ t.faulted = t'.faulted

theorem ResultsAgree.retire (h : AgreeForStep s s') : ResultsAgree (retire s) (retire s') := ⟨_, _, rfl, rfl, h, rfl⟩

theorem ResultsAgree.fault (f : Fault) (h : AgreeForStep s s') : ResultsAgree (raiseFault f s) (raiseFault f s') :=
  ⟨_, _, rfl, rfl, h, rfl⟩

theorem binaryOp_agree {op op' : Word → Word → Flags → Word × Flags} (hop : OpsAgree op op') {b b' : Word} (hb : b = b')
    (h : AgreeForStep s s') (dest : RegIx) : ResultsAgree (binaryOp op dest b s) (binaryOp op' dest b' s') := by
  subst hb
  obtain ⟨hvalue, hflags⟩ := hop (State.x s dest) b s.flags s'.flags h.flags
  unfold binaryOp
  rw [← h.x dest]
  exact .retire ((h.setX dest hvalue).setFlags hflags)

theorem divideOp_agree {b b' : Word} (hb : b = b') (h : AgreeForStep s s') (dest : RegIx) :
    ResultsAgree (divideOp dest b s) (divideOp dest b' s') := by
  subst hb
  by_cases hzero : b = 0#32
  · subst hzero
    rw [divideOp_zero, divideOp_zero]
    exact .fault _ h
  · rw [divideOp_wrote hzero, divideOp_wrote hzero, ← h.x dest]
    exact .retire ((h.setX dest rfl).setFlags (newFlags_agree_same ..))

theorem compareOp_agree {b b' : Word} (hb : b = b') (h : AgreeForStep s s') (dest : RegIx) :
    ResultsAgree (compareOp dest b s) (compareOp dest b' s') := by
  subst hb
  rw [compareOp_flags, compareOp_flags, ← h.x dest]
  exact .retire (h.setFlags ⟨rfl, rfl, rfl⟩)

theorem jumpIf_agree {taken taken' : Bool} (htaken : taken = taken') (h : AgreeForStep s s') (addr : Half) :
    ResultsAgree (jumpIf taken addr s) (jumpIf taken' addr s') := by
  subst htaken
  cases taken with
  | false => exact .retire h
  | true => exact .retire (h.setPc _)

theorem execLoad_agree (h : AgreeForStep s s') (dest base : RegIx) : ResultsAgree (execLoad dest base s) (execLoad dest base s') := by
  have hread : readWord (indirectAddress base s') s' = readWord (indirectAddress base s) s := by
    rw [← h.readWord, indirectAddress, indirectAddress, h.x]
  unfold execLoad
  rw [hread]
  cases readWord (indirectAddress base s) s with
  | error f => exact .fault f h
  | ok v => exact .retire (h.setX dest rfl)

theorem execStore_agree (h : AgreeForStep s s') (base src : RegIx) : ResultsAgree (execStore base src s) (execStore base src s') := by
  have ⟨_, _, _, _, _, _, hmem, hparams⟩ := h
  have hsize : s'.params.memSize = s.params.memSize := congrArg Config.memSize hparams.symm
  unfold execStore writeWord indirectAddress
  rw [← h.x base, ← h.x src, ← hmem, hsize]
  cases wordCheck s.params.memSize (State.x s base).toNat with
  | some f => exact .fault f h
  | none => exact .retire (h.setMem _)

/-- An instruction reads only the fields the two states agree on. -/
theorem exec_agree (i : Instr) (h : AgreeForStep s s') : ResultsAgree (exec i s) (exec i s') := by
  have ⟨hz, hsign, hc⟩ := h.flags
  have hmasks : s.params.sarMasksCount = s'.params.sarMasksCount := by
    have ⟨_, _, _, _, _, _, _, hparams⟩ := h
    rw [hparams]
  cases i with
  | nop => exact .retire h
  | halt => exact .retire h.halt
  | clc => exact .retire (h.setFlags ⟨hz, hsign, rfl⟩)
  | stc => exact .retire (h.setFlags ⟨hz, hsign, rfl⟩)
  | movReg dest src => exact .retire (h.setX dest (h.x src))
  | movImm dest imm => exact .retire (h.setX dest rfl)
  | load dest base => exact execLoad_agree h dest base
  | store base src => exact execStore_agree h base src
  | addReg dest src => exact binaryOp_agree aluAdd_agree (h.x src) h dest
  | addImm dest => exact binaryOp_agree aluAdd_agree rfl h dest
  | subReg dest src => exact binaryOp_agree aluSub_agree (h.x src) h dest
  | subImm dest => exact binaryOp_agree aluSub_agree rfl h dest
  | mulReg dest src => exact binaryOp_agree aluMul_agree (h.x src) h dest
  | mulImm dest => exact binaryOp_agree aluMul_agree rfl h dest
  | divReg dest src => exact divideOp_agree (h.x src) h dest
  | divImm dest => exact divideOp_agree rfl h dest
  | addcReg dest src => exact binaryOp_agree aluAddc_agree (h.x src) h dest
  | addcImm dest => exact binaryOp_agree aluAddc_agree rfl h dest
  | subcReg dest src => exact binaryOp_agree aluSubc_agree (h.x src) h dest
  | subcImm dest => exact binaryOp_agree aluSubc_agree rfl h dest
  | andReg dest src => exact binaryOp_agree aluAnd_agree (h.x src) h dest
  | andImm dest => exact binaryOp_agree aluAnd_agree rfl h dest
  | orReg dest src => exact binaryOp_agree aluOr_agree (h.x src) h dest
  | orImm dest => exact binaryOp_agree aluOr_agree rfl h dest
  | xorReg dest src => exact binaryOp_agree aluXor_agree (h.x src) h dest
  | xorImm dest => exact binaryOp_agree aluXor_agree rfl h dest
  | notReg dest =>
    simp only [exec, execNotReg, aluNot_flags, ← h.x dest]
    exact .retire ((h.setX dest rfl).setFlags (newFlags_agree_same ..))
  | shlReg dest src => exact binaryOp_agree aluShl_agree (h.x src) h dest
  | shlImm dest => exact binaryOp_agree aluShl_agree rfl h dest
  | shrReg dest src => exact binaryOp_agree aluShr_agree (h.x src) h dest
  | shrImm dest => exact binaryOp_agree aluShr_agree rfl h dest
  | sarReg dest src => exact binaryOp_agree (aluSar_agree hmasks) (h.x src) h dest
  | sarImm dest => exact binaryOp_agree (aluSar_agree hmasks) rfl h dest
  | rolReg dest src => exact binaryOp_agree aluRol_agree (h.x src) h dest
  | rolImm dest => exact binaryOp_agree aluRol_agree rfl h dest
  | rorReg dest src => exact binaryOp_agree aluRor_agree (h.x src) h dest
  | rorImm dest => exact binaryOp_agree aluRor_agree rfl h dest
  | cmpReg dest src => exact compareOp_agree (h.x src) h dest
  | cmpImm dest => exact compareOp_agree rfl h dest
  | jmp addr => exact jumpIf_agree rfl h addr
  | jz addr => exact jumpIf_agree hz h addr
  | jnz addr => exact jumpIf_agree (congrArg not hz) h addr
  | jc addr => exact jumpIf_agree hc h addr
  | jnc addr => exact jumpIf_agree (congrArg not hc) h addr
  | js addr => exact jumpIf_agree hsign h addr
  | jns addr => exact jumpIf_agree (congrArg not hsign) h addr

/-- A step that is not idle reads only the fields the two states agree on. -/
theorem step_agree (h : AgreeForStep s s') (hs : s.halted = false) : ResultsAgree (step s) (step s') := by
  have ⟨_, _, _, _, _, hhalted, _, hparams⟩ := h
  unfold step
  rw [← hhalted, ← h.fetchWord, ← hparams, hs]
  cases fetchWord s with
  | error f => exact .fault f h
  | ok w =>
    cases hdecode : decode s.params w with
    | error e => simpa [hdecode] using ResultsAgree.fault (decodeFault e) (h.afterFetch w)
    | ok i => simpa [hdecode] using exec_agree i (h.afterFetch w)

end Sys2Proof.Machine

namespace Sys2Proof.Proofs

open Sys2Proof.Machine Sys2Proof.Safety Sys2Proof.Claims

/-- Settles O21: the state after the fetch is the state with `ir` written and `pc` advanced. -/
theorem stepRunsDecodedInstruction : Obligations.StepRunsDecodedInstruction := fun _ _ hs hgood hdecode =>
  step_of_decode hs hgood hdecode

/-- Settles O22: the step of a halted core answers the same state, and `report` reads the halt. -/
theorem haltedStepIsIdle : Obligations.HaltedStepIsIdle := fun _ h => ⟨step_of_halted h, stepReport_of_halted h⟩

/-- Settles O23: the fetch fault is taken before the fetch writes anything, a decode fault after it. -/
theorem fetchAndDecodeFaultsAreTaken : Obligations.FetchAndDecodeFaultsAreTaken := fun _ hs =>
  ⟨step_of_not_fetchable hs, fun hgood _ hdecode => step_of_decode_error hs hgood hdecode,
   fun hgood _ hdecode => step_of_decode_error hs hgood hdecode⟩

/-- Settles O24: each clause is the decode error that the earlier checks leave. -/
theorem faultsAreReportedInOrder : Obligations.FaultsAreReportedInOrder := by
  intro s hs
  refine ⟨fun hbad => stepReport_of_fault hs (step_of_not_fetchable hs hbad), fun hgood => ⟨fun hnone => ?_, fun op hop => ⟨?_, ?_⟩⟩⟩
  · exact stepReport_of_decode_error hs hgood (decode_of_lookup_none hnone)
  · intro hno hjump hreg1
    exact stepReport_of_decode_error hs hgood ((decode_of_lookup hop).trans (decodeFields_bad_reg1 hno hjump hreg1))
  · intro hshape hreg1 hreg2
    exact stepReport_of_decode_error hs hgood ((decode_of_lookup hop).trans (decodeFields_bad_reg2 hshape hreg1 hreg2))

/-- Settles O28, by induction on the number of steps; a core that is not halted at the end was not halted before any step. -/
theorem cleanRunCountsEveryStep : Obligations.CleanRunCountsEveryStep := fun n _ hsafe hend => cleanRun_cycleCount n hsafe hend

/-- Settles O37: fetch and decode read `pc`, memory and the parameters; the instruction reads only what the states agree on. -/
theorem stepReadsNoEngineStateNorOverflowNorParity : Obligations.StepReadsNoEngineStateNorOverflowNorParity := by
  intro s s' t h hstep
  have ⟨_, _, _, _, _, hhalted, _⟩ := h
  cases hs : s.halted with
  | true =>
    have hs' : s'.halted = true := hhalted ▸ hs
    cases (step_of_halted hs).symm.trans hstep
    exact ⟨s', step_of_halted hs', h, by rw [report_of_halted s' hs', report_of_halted s hs]⟩
  | false =>
    obtain ⟨u, t', hstep', hnext, hagree, hfaulted⟩ := step_agree h hs
    cases hstep'.symm.trans hstep
    exact ⟨t', hnext, hagree, by rw [report, report, hhalted, hfaulted]⟩

/-- Settles O41: the range check passes and the alignment check fails; a byte access has only the range check. -/
theorem misalignedWordAccessFaults : Obligations.MisalignedWordAccessFaults := by
  intro s
  have hcheck {a : Nat} (hfits : a + 4 ≤ s.params.memSize) (hmisaligned : a % 4 ≠ 0) :
      wordCheck s.params.memSize a = some (.misaligned a) := (wordCheck_eq_some ..).mpr (.inr ⟨hfits, hmisaligned, rfl⟩)
  refine ⟨fun dest base src hfits hmis => ?_, fun a v hfits hmis => ⟨?_, ?_⟩, fun hs _ hmis => ?_, fun a v hin => ?_⟩
  · exact ⟨exec_load_fault (hcheck hfits hmis) dest, exec_store_fault (hcheck hfits hmis) src⟩
  · exact (readWord_error ..).mpr (hcheck hfits hmis)
  · have hwrite : writeWord a v s = .error (.misaligned a) := (writeWord_error ..).mpr (hcheck hfits hmis)
    simp [perform, hwrite, answerWrite]
  · exact step_of_not_fetchable hs fun hgood => hmis hgood.2
  · exact ⟨⟨_, (readByte_ok ..).mpr ⟨hin, rfl⟩⟩, _, (writeByte_ok ..).mpr ⟨hin, rfl⟩⟩

/-- Settles O45: the store leaves `pc` and the parameters, so the next step fetches and decodes the stored word. -/
theorem storeIsSeenByTheNextFetch : Obligations.StoreIsSeenByTheNextFetch := by
  intro s base src i ⟨_, hwf, _⟩ hs hgood haddr hdecode
  have ⟨hfits, haligned⟩ := hgood
  rw [← haddr] at hfits haligned
  refine ⟨_, exec_store_stored hfits haligned src, ?_⟩
  have hword : Memory.word (stored s (indirectAddress base s) (State.x s src)).mem s.pc.toNat = State.x s src :=
    haddr ▸ stored_word hwf (indirectAddress base s) (State.x s src)
  have hstep := step_of_decode (s := stored s (indirectAddress base s) (State.x s src)) (i := i) hs hgood
    ((congrArg (decode s.params) hword).trans hdecode)
  exact hstep.trans (congrArg (fun w => exec i (afterFetch w (stored s (indirectAddress base s) (State.x s src)))) hword)

end Sys2Proof.Proofs
end

section
/-! PROOFS. Memory as data (spec/20_memory.md section 1): the byte accessors, a copy of bytes, equality of canonical memories; and the stack
(spec/43_data_movement.md, spec/30_encoding.md R110). -/

namespace Sys2Proof.Machine

open Sys2Proof.Claims

/-! ## Canonical memories -/

theorem Memory.wfFrom_cons {lo k : Nat} {v : Byte} {rest : Memory} :
    Memory.wfFrom lo ((k, v) :: rest) = true ↔ lo ≤ k ∧ v ≠ 0#8 ∧ Memory.wfFrom (k + 1) rest = true := by
  simp [Memory.wfFrom, and_assoc]

@[simp] theorem Memory.byte_cons_self (k : Nat) (v : Byte) (rest : Memory) : Memory.byte ((k, v) :: rest) k = v := if_pos rfl

theorem Memory.byte_cons_other {k a : Nat} (h : a ≠ k) (v : Byte) (rest : Memory) :
    Memory.byte ((k, v) :: rest) a = Memory.byte rest a := if_neg h

/-- The first listed address of a canonical memory is the first that does not read as 0x00, so that equal reads give equal lists. -/
theorem Memory.eq_of_byte_eq {lo : Nat} {m m' : Memory} (hm : Memory.wfFrom lo m = true) (hm' : Memory.wfFrom lo m' = true)
    (h : ∀ a, Memory.byte m a = Memory.byte m' a) : m = m' := by
  induction m generalizing lo m' with
  | nil =>
    cases m' with
    | nil => rfl
    | cons cell' rest' =>
      obtain ⟨-, hv', -⟩ := Memory.wfFrom_cons.mp hm'
      exact absurd ((Memory.byte_cons_self ..).symm.trans (h _).symm) hv'
  | cons cell rest ih =>
    obtain ⟨k, v⟩ := cell
    obtain ⟨hlo, hv, hrest⟩ := Memory.wfFrom_cons.mp hm
    cases m' with
    | nil => exact absurd ((Memory.byte_cons_self ..).symm.trans (h k)) hv
    | cons cell' rest' =>
      obtain ⟨k', v'⟩ := cell'
      obtain ⟨hlo', hv', hrest'⟩ := Memory.wfFrom_cons.mp hm'
      have hge : k' ≤ k := by
        by_contra hlt
        have hzero : Memory.byte ((k', v') :: rest') k = 0#8 :=
          Memory.byte_below (lo := k') (by omega) _ (Memory.wfFrom_cons.mpr ⟨Nat.le_refl _, hv', hrest'⟩)
        exact hv ((Memory.byte_cons_self k v rest).symm.trans ((h k).trans hzero))
      have hle : k ≤ k' := by
        by_contra hlt
        have hzero : Memory.byte ((k, v) :: rest) k' = 0#8 :=
          Memory.byte_below (lo := k) (by omega) _ (Memory.wfFrom_cons.mpr ⟨Nat.le_refl _, hv, hrest⟩)
        exact hv' ((Memory.byte_cons_self k' v' rest').symm.trans ((h k').symm.trans hzero))
      obtain rfl : k = k' := Nat.le_antisymm hle hge
      obtain rfl : v = v' := by simpa using h k
      have htail (a : Nat) : Memory.byte rest a = Memory.byte rest' a := by
        by_cases ha : a = k
        · subst ha
          rw [Memory.byte_below (Nat.lt_succ_self _) rest hrest, Memory.byte_below (Nat.lt_succ_self _) rest' hrest']
        · rw [← Memory.byte_cons_other ha v rest, h a, Memory.byte_cons_other ha v rest']
      rw [ih hrest hrest' htail]

/-- The bytes after a copy: the copied ones, and every other byte as before (R320). -/
theorem Memory.byte_setBytes (bytes : List Byte) {m : Memory} (hm : Memory.wf m = true) (start a : Nat) :
    Memory.byte (Memory.setBytes m start bytes) a =
      if start ≤ a ∧ a < start + bytes.length then bytes.getD (a - start) 0#8 else Memory.byte m a := by
  induction bytes generalizing m start with
  | nil =>
    rw [if_neg (by simp)]
    rfl
  | cons b rest ih =>
    rw [Memory.setBytes, ih (Memory.wf_setByte hm start b), Memory.byte_setByte hm, List.length_cons]
    rcases Nat.lt_trichotomy a start with hlt | rfl | hgt
    · rw [if_neg (by omega), if_neg (by omega), if_neg (by omega)]
    · rw [if_neg (by omega), if_pos rfl, if_pos (by omega), Nat.sub_self]
      rfl
    · have hindex : a - start = a - (start + 1) + 1 := by omega
      by_cases hin : a < start + (rest.length + 1)
      · rw [if_pos (by omega), if_pos (by omega), hindex, List.getD_cons_succ]
      · rw [if_neg (by omega), if_neg (by omega), if_neg (by omega)]

/-! ## The byte accessors -/

theorem readByte_of_le {s : State} {a : Nat} (h : s.params.memSize ≤ a) : readByte a s = .error (.outOfRange a) := if_pos h

theorem writeByte_of_le {s : State} {a : Nat} (h : s.params.memSize ≤ a) (v : Int) : writeByte a v s = .error (.outOfRange a) := if_pos h

/-! ## The stack -/

/-- Reading the registers after a write in Execute. -/
theorem wrote_x (s : State) (dest r : RegIx) (v : Word) (f : Flags) :
    State.x (wrote s dest v f) r = if r = dest then v else State.x s r := setX_x s dest r v

@[simp] theorem stored_x (s : State) (addr : Nat) (v : Word) (r : RegIx) : State.x (stored s addr v) r = State.x s r := rfl

/-- Two register files with equal entries are equal. -/
theorem regs_eq_of_x {s t : State} (h : ∀ r, State.x s r = State.x t r) : s.regs = t.regs :=
  Vector.ext fun i hi => h ⟨i, hi⟩

theorem execAll_cons {i : Instr} {s t : State} (h : exec i s = .next t) (rest : List Instr) : execAll (i :: rest) s = execAll rest t := by
  simp [execAll, h]

/-- After PUSH: the word of the register at SP - 4, and SP there (R110). -/
def pushed (s : State) (n : RegIx) : State :=
  stored (wrote s spIx (State.sp s - 4#32) (subFlags (State.sp s) 4#32)) ((State.sp s).toNat - 4) (State.x s n)

/-- After POP: the register holds the word at SP, and SP is 4 higher (R110). -/
def popped (s : State) (n : RegIx) : State :=
  wrote (wrote s n (Memory.word s.mem (State.sp s).toNat) s.flags) spIx (State.sp s + 4#32) (addFlags (State.sp s) 4#32)

theorem sub_four_toNat {v : Word} (h : 4 ≤ v.toNat) : (v - 4#32).toNat = v.toNat - 4 :=
  BitVec.toNat_sub_of_le (BitVec.le_def.mpr h)

theorem pushed_sp (s : State) (n : RegIx) : State.sp (pushed s n) = State.sp s - 4#32 := by
  rw [State.sp, pushed, stored_x, wrote_x, if_pos rfl]

theorem pushed_x {r : RegIx} (h : r ≠ spIx) (s : State) (n : RegIx) : State.x (pushed s n) r = State.x s r := by
  rw [pushed, stored_x, wrote_x, if_neg h]

theorem execAll_pushSequence {s : State} {n : RegIx} (hn : n ≠ spIx) (hlow : 4 ≤ (State.sp s).toNat)
    (hhigh : (State.sp s).toNat ≤ s.params.memSize) (haligned : (State.sp s).toNat % 4 = 0) (rest : List Instr) :
    execAll (pushSequence n ++ rest) s = execAll rest (pushed s n) := by
  have hsub : exec (.subImm spIx 4) s = .next (wrote s spIx (State.sp s - 4#32) (subFlags (State.sp s) 4#32)) :=
    binaryOp_wrote (aluSub_flags ..)
  have haddr : indirectAddress spIx (wrote s spIx (State.sp s - 4#32) (subFlags (State.sp s) 4#32)) = (State.sp s).toNat - 4 := by
    rw [indirectAddress, wrote_x, if_pos rfl, sub_four_toNat hlow]
  have hfits : (State.sp s).toNat - 4 + 4 ≤ s.params.memSize := by omega
  have hstore := exec_store_stored (base := spIx) (s := wrote s spIx (State.sp s - 4#32) (subFlags (State.sp s) 4#32))
    (haddr ▸ hfits) (by omega) n
  rw [haddr, wrote_x, if_neg hn] at hstore
  exact (execAll_cons hsub _).trans (execAll_cons hstore _)

theorem execAll_popSequence {s : State} {n : RegIx} (hn : n ≠ spIx) (hfits : (State.sp s).toNat + 4 ≤ s.params.memSize)
    (haligned : (State.sp s).toNat % 4 = 0) : execAll (popSequence n) s = some (popped s n) := by
  have hload : exec (.load n spIx) s = .next (wrote s n (Memory.word s.mem (State.sp s).toNat) s.flags) :=
    exec_load_wrote (base := spIx) hfits haligned n
  have hsp : State.x (wrote s n (Memory.word s.mem (State.sp s).toNat) s.flags) spIx = State.sp s :=
    (wrote_x ..).trans (if_neg hn.symm)
  have hadd : exec (.addImm spIx 4) (wrote s n (Memory.word s.mem (State.sp s).toNat) s.flags) = .next (wrote _ spIx _ _) :=
    binaryOp_wrote (aluAdd_flags ..)
  rw [hsp] at hadd
  rw [popSequence, execAll_cons hload, execAll_cons hadd]
  rfl

/-- PUSH and then POP of a register gives every register its value back. -/
theorem popped_pushed_x {s : State} {n : RegIx} (hwf : Memory.wf s.mem = true) (hlow : 4 ≤ (State.sp s).toNat)
    (r : RegIx) : State.x (popped (pushed s n) n) r = State.x s r := by
  have hword : Memory.word (pushed s n).mem (State.sp (pushed s n)).toNat = State.x s n := by
    rw [pushed_sp, sub_four_toNat hlow]
    exact Memory.word_setWord hwf _ _
  rw [popped, wrote_x, wrote_x, hword, pushed_sp, BitVec.sub_add_cancel]
  by_cases hsp : r = spIx
  · rw [if_pos hsp, hsp, State.sp]
  · rw [if_neg hsp, pushed_x hsp]
    split
    next hr => rw [hr]
    next => rfl

end Sys2Proof.Machine

namespace Sys2Proof.Proofs

open Sys2Proof.Machine Sys2Proof.Claims

/-- Settles O44, by induction on the first memory. -/
theorem canonicalMemoriesAreEqualWhenTheyReadAlike : Obligations.CanonicalMemoriesAreEqualWhenTheyReadAlike :=
  fun _ _ hm hm' h => Memory.eq_of_byte_eq hm hm' h

/-- Settles O42: the range check of both accessors, and the byte write of the memory. -/
theorem byteAccessorsFollowTheirRules : Obligations.ByteAccessorsFollowTheirRules := by
  intro s a v
  refine ⟨fun hout => ?_, fun hin => ?_⟩
  · have hread := readByte_of_le hout
    have hwrite := writeByte_of_le hout v
    exact ⟨hread, hwrite, by simp [perform, hread, answerByte], by simp [perform, hwrite, answerWrite]⟩
  · have hread : readByte a s = .ok (Memory.byte s.mem a) := (readByte_ok ..).mpr ⟨hin, rfl⟩
    have hwrite : writeByte a v s = .ok { s with mem := Memory.setByte s.mem a (lowByte v) } := (writeByte_ok ..).mpr ⟨hin, rfl⟩
    refine ⟨hread, by simp [perform, hread, answerByte], _, hwrite, by simp [perform, hwrite, answerWrite], rfl, fun hwf => ⟨?_, ?_⟩⟩
    · rw [Memory.byte_setByte hwf, if_pos rfl, lowByte_toNat]
    · exact fun a' ha' => Memory.byte_setByte_other _ ha' _

/-- Settles O46: the state after PUSH has SP where POP reads the stored word. -/
theorem pushThenPopRestores : Obligations.PushThenPopRestores := by
  intro s n hn hwf hlow hhigh haligned
  have hsp : (State.sp (pushed s n)).toNat = (State.sp s).toNat - 4 := by rw [pushed_sp, sub_four_toNat hlow]
  have hfits : (State.sp (pushed s n)).toNat + 4 ≤ (pushed s n).params.memSize := by
    rw [hsp, Nat.sub_add_cancel hlow]
    exact hhigh
  have hrun : execAll (pushSequence n ++ popSequence n) s = some (popped (pushed s n) n) := by
    rw [execAll_pushSequence hn hlow hhigh haligned, execAll_popSequence hn hfits (by omega)]
  refine ⟨_, hrun, regs_eq_of_x (popped_pushed_x hwf hlow), ?_, rfl, rfl, Memory.word_setWord hwf _ _, fun a ha => ?_⟩
  · rw [← pushed_sp s n]
    rfl
  · exact Memory.byte_setWord_other _ _ (by omega)

end Sys2Proof.Proofs
end

section
/-! PROOFS. The host's operations (spec/70_reset_and_hazards.md): construction and reset, `load_program`, the register port, and the ends of
`run` (R323). -/

namespace Sys2Proof.Machine

open Sys2Proof.Safety Sys2Proof.Claims

/-! ## Reset and construction -/

theorem mask32_ofNat (n : Nat) : mask32 (Int.ofNat n) = BitVec.ofNat 32 n := BitVec.ofInt_natCast 32 n

/-- SP after construction and reset is STACK_BASE as a `u32` (R39). -/
theorem resetRegs_sp (c : Config) : (resetRegs c)[8] = BitVec.ofNat 32 (c.memSize - c.stackSize) := by
  rw [resetRegs, Vector.getElem_set_self, mask32_ofNat, Config.stackBase]

/-- Every other register is 0 (R38). -/
theorem resetRegs_other (c : Config) {i : RegIx} (hi : i ≠ spIx) : (resetRegs c)[i.val] = 0#32 := by
  have hval : (8 : Nat) ≠ i.val := fun h => hi (Fin.ext h.symm)
  rw [resetRegs, Vector.getElem_set_ne _ _ hval, Vector.getElem_replicate]
  rfl

/-- Memory after construction: the given bytes below `MEM_SIZE`, 0x00 elsewhere (R311). -/
theorem byte_initial (init : List Byte) (size a : Nat) :
    Memory.byte (Memory.setBytes [] 0 (init.take size)) a = if a < size then init.getD a 0#8 else 0#8 := by
  rw [Memory.byte_setBytes _ rfl, List.length_take, Nat.sub_zero, Memory.byte]
  by_cases hsize : a < size
  · rw [if_pos hsize, List.getD_eq_getElem?_getD, List.getElem?_take_of_lt hsize, List.getD_eq_getElem?_getD]
    by_cases hin : a < init.length
    · rw [if_pos (by omega)]
    · rw [if_neg (by omega), List.getElem?_eq_none (by omega)]
      rfl
  · rw [if_neg hsize, if_neg (by omega)]

/-! ## Steps one after another -/

/-- The last of `k + 1` steps is made after the first `k`. -/
theorem afterSteps_succ (k : Nat) (s : State) : afterSteps (k + 1) s = stepped (afterSteps k s) := by
  induction k generalizing s with
  | zero => rfl
  | succ k ih => exact ih (stepped s)

/-- The first `k` steps all execute an instruction. -/
def AllExecuted (k : Nat) (s : State) : Prop := ∀ j, j < k → stepReport (afterSteps j s) = .executed

theorem AllExecuted.cons {k : Nat} {s : State} (hfirst : stepReport s = .executed) (hrest : AllExecuted k (stepped s)) :
    AllExecuted (k + 1) s := by
  intro j hj
  cases j with
  | zero => exact hfirst
  | succ j => exact hrest j (Nat.lt_of_succ_lt_succ hj)

theorem AllExecuted.snoc {k : Nat} {s : State} (h : AllExecuted k s) (hlast : stepReport (afterSteps k s) = .executed) :
    AllExecuted (k + 1) s := by
  intro j hj
  obtain hlt | rfl := Nat.lt_succ_iff_lt_or_eq.mp hj
  · exact h j hlt
  · exact hlast

/-! ## The loop of `run` -/

/-- The condition of the loop holds (R323). -/
def GoesOn (s : State) : Prop := s.halted = false ∧ s.running = true

/-- The step executes HALT, after which the core is halted and does not run. -/
def StepHalts (s : State) : Prop :=
  Executes .halt s ∧ stepReport s = .executed ∧ (stepped s).halted = true ∧ (stepped s).running = false

/-- The step takes the fault, after which the core does not run and is not halted. -/
def StepFaults (s : State) (f : Fault) : Prop :=
  stepReport s = .fault f ∧ (stepped s).halted = false ∧ (stepped s).running = false ∧ (stepped s).faulted = some f

theorem StepFaults.of_eq {s u : State} {f : Fault} (hs : s.halted = false) (hu : u.halted = false) (h : stepped s = faultTaken f u) :
    StepFaults s f := by
  refine ⟨?_, by rw [h]; exact hu, by rw [h]; rfl, by rw [h]; rfl⟩
  rw [stepReport, h]
  exact report_of_faulted hs rfl

/-- A step of the loop lets it go on, executes HALT, or faults. -/
theorem GoesOn.step {s : State} (h : GoesOn s) :
    (stepReport s = .executed ∧ GoesOn (stepped s)) ∨ StepHalts s ∨ ∃ f, StepFaults s f := by
  obtain ⟨hs, hrunning⟩ := h
  have hto := stepTo_stepped s
  generalize ht : stepped s = t at hto
  cases hto with
  | idle hidle => simp [hs] at hidle
  | fetchFault => exact .inr (.inr ⟨_, .of_eq hs hs ht⟩)
  | laterFault f => exact .inr (.inr ⟨f, .of_eq (u := fetched s) hs hs ht⟩)
  | retired i u _ hgood hdecode hwrites =>
    have hexecuted : stepReport s = .executed := by rw [stepReport, ht, report_counted hs]
    obtain hkeeps | ⟨rfl, rfl⟩ := hwrites.engine
    · exact .inl ⟨hexecuted, hkeeps.halted.trans hs, hkeeps.running.trans hrunning⟩
    · exact .inr (.inl ⟨⟨hs, hgood, hdecode⟩, hexecuted, by rw [ht]; rfl, by rw [ht]; rfl⟩)

/-- The loop makes `k` executing steps, and then the cap is reached or one step more ends it (R323). -/
theorem runLoop_cases (n : Nat) {s : State} (h : GoesOn s) : ∃ k, AllExecuted k s ∧ GoesOn (afterSteps k s) ∧
    ((k = n ∧ runLoop n s = afterSteps k s) ∨
     (k < n ∧ runLoop n s = afterSteps (k + 1) s ∧ (StepHalts (afterSteps k s) ∨ ∃ f, StepFaults (afterSteps k s) f))) := by
  induction n generalizing s with
  | zero => exact ⟨0, nofun, h, .inl ⟨rfl, rfl⟩⟩
  | succ n ih =>
    have hloop : runLoop (n + 1) s = runLoop n (stepped s) := runLoop_of_running n h.2 h.1
    rw [hloop]
    obtain ⟨hexecuted, hnext⟩ | hends := h.step
    · obtain ⟨k, hall, hgoes, hend⟩ := ih hnext
      refine ⟨k + 1, hall.cons hexecuted, hgoes, ?_⟩
      obtain ⟨rfl, heq⟩ | ⟨hlt, heq, hlast⟩ := hend
      · exact .inl ⟨rfl, heq⟩
      · exact .inr ⟨Nat.succ_lt_succ hlt, heq, hlast⟩
    · have hstopped : ((stepped s).running && !(stepped s).halted) = false := by
        obtain ⟨_, _, _, hrunning⟩ | ⟨f, _, _, hrunning, _⟩ := hends <;> simp [hrunning]
      exact ⟨0, nofun, h, .inr ⟨Nat.succ_pos n, runLoop_of_stopped n hstopped, hends⟩⟩

theorem runEnd_of_halted {t : State} (h : t.halted = true) : runEnd t = .halted := by simp [runEnd, h]

theorem runEnd_of_goesOn {t : State} (h : GoesOn t) : runEnd t = .capped := by simp [runEnd, h.1, h.2]

theorem runEnd_of_fault {t : State} {f : Fault} (hhalted : t.halted = false) (hrunning : t.running = false) (hf : t.faulted = some f) :
    runEnd t = .fault f := by
  simp [runEnd, hhalted, hrunning, hf]

end Sys2Proof.Machine

namespace Sys2Proof.Proofs

open Sys2Proof.Machine Sys2Proof.Claims

/-- Settles O47: reset and construction write the same values, memory apart. -/
theorem resetReturnsToConstruction : Obligations.ResetReturnsToConstruction := by
  intro c init s0 s hconstruct hparams
  obtain ⟨-, rfl⟩ := (construct_eq_some c init s0).mp hconstruct
  subst hparams
  exact ⟨rfl, rfl, rfl, rfl, rfl, rfl, rfl, resetRegs_sp s.params⟩

/-- Settles O48: the fields are those of the constructed record; registers and memory by their reads. -/
theorem constructionLeavesTheListedValues : Obligations.ConstructionLeavesTheListedValues := by
  refine ⟨fun c init hvalid => ?_, warmReset_mem, construct_default⟩
  exact ⟨_, (construct_eq_some c init _).mpr ⟨hvalid, rfl⟩, fun i hi => resetRegs_other c hi, resetRegs_sp c,
    rfl, rfl, rfl, rfl, rfl, rfl, rfl, fun a => byte_initial init c.memSize a⟩

/-- Settles O49: the copy inside the loaded range and outside it. -/
theorem loadProgramCopiesAndSetsPc : Obligations.LoadProgramCopiesAndSetsPc := by
  intro bytes start s hfits
  refine ⟨_, (loadProgram_ok ..).mpr ⟨hfits, rfl⟩, mask32_ofNat start, rfl, fun hwf => ⟨fun k hk => ?_, fun a ha => ?_⟩⟩
  · rw [Memory.byte_setBytes bytes hwf, if_pos (by omega), Nat.add_sub_cancel_left]
  · rw [Memory.byte_setBytes bytes hwf, if_neg (by omega)]

/-- Settles O50: the loop from the state with `running` set, its last step told apart by what stops it. -/
theorem runEndsInOneOfThreeWays : Obligations.RunEndsInOneOfThreeWays := by
  intro n s
  refine ⟨rfl, run_of_halted n, fun hs => ?_⟩
  obtain ⟨k, hall, hgoes, ⟨rfl, heq⟩ | ⟨hlt, heq, hhalts | ⟨f, hreport, hhalted, hrunning, hfault⟩⟩⟩ :=
    runLoop_cases n (s := { s with running := true }) ⟨hs, rfl⟩
  · have hrun : run k s = afterSteps k { s with running := true } := heq
    rw [← hrun] at hgoes
    exact .inr (.inr ⟨hrun, hall, hgoes.1, hgoes.2, runEnd_of_goesOn hgoes⟩)
  · obtain ⟨hhalt, hexecuted, hhalted, hrunning⟩ := hhalts
    have hrun : run n s = afterSteps (k + 1) { s with running := true } := heq
    rw [← afterSteps_succ, ← hrun] at hhalted hrunning
    exact .inl ⟨k, hlt, hrun, fun j hj => hall.snoc hexecuted j (Nat.lt_succ_of_le hj), hhalt, hhalted, hrunning,
      runEnd_of_halted hhalted⟩
  · have hrun : run n s = afterSteps (k + 1) { s with running := true } := heq
    rw [← afterSteps_succ, ← hrun] at hhalted hrunning hfault
    exact .inr (.inl ⟨k, f, hlt, hrun, hall, hreport, hhalted, hrunning, hfault, runEnd_of_fault hhalted hrunning hfault⟩)

/-- Settles O52: an index below 9 is a register; the other three and the refusal by the tests of the port in their order. -/
theorem registerPortReachesNineRegistersAndThreeMore : Obligations.RegisterPortReachesNineRegistersAndThreeMore := by
  intro s v
  refine ⟨fun i => ⟨dif_pos i.isLt, _, dif_pos i.isLt, rfl, fun j => setX_x s i j _⟩, rfl, rfl, rfl, rfl, rfl, rfl, ?_⟩
  intro n hreg hpc hir hsp
  have hset : regSet n v s = .error (.invalidRegister n) := by
    simp [regSet, Nat.not_lt.mpr hreg, hpc, hir, hsp]
  exact ⟨by simp [regGet, Nat.not_lt.mpr hreg, hpc, hir, hsp], by simp [perform, hset, answerWrite]⟩

end Sys2Proof.Proofs
end
